-- ==== Sys2Proof/Word.lean ====
section
/-!
DEFINITION. The bit vectors the spec names (00_scope.md R7, R9; 30_encoding.md R71, R72): every one is a plain
abbreviation, so the library's lemmas about bit vectors apply to it.
-/

namespace Sys2Proof

/-- One binary32 bit pattern (00_scope.md R9): sign in bit 31, biased exponent in bits 30:23, fraction in bits 22:0. -/
abbrev Word := BitVec 32

/-- A 32-bit unsigned counter of the core (00_scope.md R15). -/
abbrev Count := BitVec 32

/-- A 64-bit unsigned number of milliseconds (00_scope.md R15). -/
abbrev Time := BitVec 64

/-- One command beat `cmd[111:0]` of the command port (30_encoding.md R71). -/
abbrev Beat := BitVec 112

/-- An 8-bit code: an operation code, a channel identifier, a stage code or a device category
(30_encoding.md R73 to R77). -/
abbrev Code8 := BitVec 8

/-- The binary32 pattern of `+0.0` (00_scope.md R9). -/
def posZero : Word := 0x00000000#32

end Sys2Proof
end

