-- ==== Sys2Proof/Syntax.lean ====
section
/-!
DEFINITION. The thirteen operations of spec/opcode_table.json (30_encoding.md R73, R74, R86), and the two formats their
codes come in (R70).
-/

namespace Sys2Proof

/-- The operations, one constructor for each row of spec/opcode_table.json. The two host commands carry the fields a
rule gives them; a stage operation has none (30_encoding.md R72), and FRESET has none that is read (R81). -/
inductive Instr where
  /-- SAMPLE `ch`, `raw`, `ts` (40_decimator.md R90); `ts` is carried and read by no rule (30_encoding.md R81). -/
  | sample (ch : Code8) (raw : Word) (ts : Time)
  /-- FRESET (42_highpass_filter.md R109). -/
  | freset
  /-- WAIT (46_sequencer_io.md R151). -/
  | wait
  /-- PWR (41_power_estimator.md R100). -/
  | pwr
  /-- BQ0 (42_highpass_filter.md R106). -/
  | bq0
  /-- BQ1 (42_highpass_filter.md R107). -/
  | bq1
  /-- BQ2 (42_highpass_filter.md R108). -/
  | bq2
  /-- BPUSH (43_baseline.md R120). -/
  | bpush
  /-- DETECT (44_event_detector.md R130). -/
  | detect
  /-- CLASSIFY (45_classifier.md R141). -/
  | classify
  /-- EMIT (46_sequencer_io.md R152). -/
  | emit
  /-- BASE (43_baseline.md R121). -/
  | base
  /-- STATUS (46_sequencer_io.md R153). -/
  | status
deriving DecidableEq, Repr

/-- An operation's code in one of the two formats of 30_encoding.md R70: an H-format beat of the command port, or the
S-format value of the `stage` register. -/
inductive Code where
  | beat (cmd : Beat)
  | stage (code : Code8)
deriving DecidableEq, Repr

/-- The agent that executes an operation (10_state.md R20): ACQ the host commands, PROC the stages. -/
inductive Format where
  | h
  | s
deriving DecidableEq, Repr

/-- The format of an operation (30_encoding.md R73, R74). -/
def Instr.format : Instr → Format
  | .sample _ _ _ => .h
  | .freset => .h
  | .wait => .s
  | .pwr => .s
  | .bq0 => .s
  | .bq1 => .s
  | .bq2 => .s
  | .bpush => .s
  | .detect => .s
  | .classify => .s
  | .emit => .s
  | .base => .s
  | .status => .s

end Sys2Proof
end

