-- ==== Sys2Proof/Decode.lean ====
section
/-!
DEFINITION. The decoder and the encoder of the two formats (30_encoding.md R70 to R74), and the table rows of
spec/opcode_table.json as data.
-/

namespace Sys2Proof

/-- Why a code stands for no operation. -/
inductive DecodeError where
  /-- A beat whose `op` is neither `0x01` nor `0x02` (30_encoding.md R73, R80). -/
  | reservedOpcode (op : Code8)
  /-- A stage value outside `0x10..0x1A` (30_encoding.md R74, 93_implementation_defined.md U7). -/
  | illegalStage (code : Code8)
deriving DecidableEq, Repr

/-- `cmd[111:104]`, the operation code (30_encoding.md R71). -/
def beatOp (cmd : Beat) : Code8 := cmd.extractLsb' 104 8

/-- `cmd[103:96]`, the channel identifier (30_encoding.md R71). -/
def beatCh (cmd : Beat) : Code8 := cmd.extractLsb' 96 8

/-- `cmd[95:64]`, the raw value (30_encoding.md R71, R85). -/
def beatRaw (cmd : Beat) : Word := cmd.extractLsb' 64 32

/-- `cmd[63:0]`, the sample's timestamp (30_encoding.md R71, R81). -/
def beatTs (cmd : Beat) : Time := cmd.extractLsb' 0 64

/-- The decoder of H-format beats (30_encoding.md R73). -/
def decodeBeat (cmd : Beat) : Except DecodeError Instr :=
  if beatOp cmd = 0x01#8 then .ok (.sample (beatCh cmd) (beatRaw cmd) (beatTs cmd))
  else if beatOp cmd = 0x02#8 then .ok .freset
  else .error (.reservedOpcode (beatOp cmd))

/-- The decoder of S-format stage codes (30_encoding.md R74). -/
def decodeStage (code : Code8) : Except DecodeError Instr :=
  if code = 0x10#8 then .ok .wait
  else if code = 0x11#8 then .ok .pwr
  else if code = 0x12#8 then .ok .bq0
  else if code = 0x13#8 then .ok .bq1
  else if code = 0x14#8 then .ok .bq2
  else if code = 0x15#8 then .ok .bpush
  else if code = 0x16#8 then .ok .detect
  else if code = 0x17#8 then .ok .classify
  else if code = 0x18#8 then .ok .emit
  else if code = 0x19#8 then .ok .base
  else if code = 0x1A#8 then .ok .status
  else .error (.illegalStage code)

/-- The decoder of both formats (30_encoding.md R70). -/
def decode : Code → Except DecodeError Instr
  | .beat cmd => decodeBeat cmd
  | .stage code => decodeStage code

/-- The beat with the four fields of 30_encoding.md R71. -/
def packBeat (op ch : Code8) (raw : Word) (ts : Time) : Beat := op ++ (ch ++ (raw ++ ts))

/-- The encoder (30_encoding.md R71, R73, R74). A FRESET is written with zeros in the fields that no rule reads
(30_encoding.md R81; 95_test_vectors.md P3 writes it so). -/
def encode : Instr → Code
  | .sample ch raw ts => .beat (packBeat 0x01#8 ch raw ts)
  | .freset => .beat (packBeat 0x02#8 0#8 0#32 0#64)
  | .wait => .stage 0x10#8
  | .pwr => .stage 0x11#8
  | .bq0 => .stage 0x12#8
  | .bq1 => .stage 0x13#8
  | .bq2 => .stage 0x14#8
  | .bpush => .stage 0x15#8
  | .detect => .stage 0x16#8
  | .classify => .stage 0x17#8
  | .emit => .stage 0x18#8
  | .base => .stage 0x19#8
  | .status => .stage 0x1A#8

/-- A row of spec/opcode_table.json: the format's width in bits, and the `match` and `mask` numbers. -/
structure TableRow where
  width   : Nat
  pattern : Nat
  mask    : Nat
deriving DecidableEq, Repr

/-- The row of an operation (30_encoding.md R86). -/
def tableRow : Instr → TableRow
  | .sample _ _ _ => ⟨112, 0x0100000000000000000000000000, 0xFF00000000000000000000000000⟩
  | .freset => ⟨112, 0x0200000000000000000000000000, 0xFF00000000000000000000000000⟩
  | .wait => ⟨8, 0x10, 0xFF⟩
  | .pwr => ⟨8, 0x11, 0xFF⟩
  | .bq0 => ⟨8, 0x12, 0xFF⟩
  | .bq1 => ⟨8, 0x13, 0xFF⟩
  | .bq2 => ⟨8, 0x14, 0xFF⟩
  | .bpush => ⟨8, 0x15, 0xFF⟩
  | .detect => ⟨8, 0x16, 0xFF⟩
  | .classify => ⟨8, 0x17, 0xFF⟩
  | .emit => ⟨8, 0x18, 0xFF⟩
  | .base => ⟨8, 0x19, 0xFF⟩
  | .status => ⟨8, 0x1A, 0xFF⟩

/-- The width of a code in bits (30_encoding.md R70). -/
def Code.width : Code → Nat
  | .beat _ => 112
  | .stage _ => 8

/-- A code as one number, bit 0 least significant (30_encoding.md R71, R72). -/
def Code.toNat : Code → Nat
  | .beat cmd => BitVec.toNat cmd
  | .stage code => BitVec.toNat code

/-- A code fits a table row: same width, and the masked bits are the row's (30_encoding.md R86). -/
def TableRow.fits (r : TableRow) (c : Code) : Bool :=
  r.width == c.width && (c.toNat &&& r.mask) == r.pattern

/-- The code whose bits, as the opcode table numbers them, are `w`: up to 8 bits a stage code, else a beat. -/
def codeOfTableWord (nbits w : Nat) : Code :=
  if nbits ≤ 8 then .stage (BitVec.ofNat 8 w) else .beat (BitVec.ofNat 112 w)

/-- What the decoder reads from an instruction whose bits are `w`, numbered as spec/opcode_table.json numbers them. -/
def decodeTableWord (nbits w : Nat) : Option Instr :=
  match decode (codeOfTableWord nbits w) with
  | .ok i => some i
  | .error _ => none

end Sys2Proof
end

