-- ==== Sys2Proof/Config.lean ====
section
/-!
DEFINITION. The build-time configuration `Cfg` of 00_scope.md R5, the open parameters of the device as constants with
no body (so no proof can see a value of them), and the free NaN patterns of 00_scope.md R13.
-/

namespace Sys2Proof

/-- The five coefficients of one biquad section, `HP[s][b0..a2]` (00_scope.md R5; `a0` is normalised to 1 and not
stored, 20_memory.md R52). -/
structure Coefs where
  b0 : Word
  b1 : Word
  b2 : Word
  a1 : Word
  a2 : Word
deriving DecidableEq, Repr

/-- One entry of the device table, `DEVTAB[i]` (00_scope.md R5, 20_memory.md R53). `name` is the display name: inert
configuration text that no rule reads (00_scope.md R3 item e). -/
structure DevRange where
  cat  : Code8
  min  : Word
  max  : Word
  name : String
deriving DecidableEq, Repr

/-- The configuration record `Cfg` (00_scope.md R5). `NDEV` is the length of `devTab`. -/
structure Cfg where
  adcRateHz      : Nat
  targetRateHz   : Nat
  scale          : Word
  hp0            : Coefs
  hp1            : Coefs
  hp2            : Coefs
  ringSize       : Nat
  eventThreshold : Word
  debounceMs     : Time
  otherFloor     : Word
  devTab         : List DevRange
  statusInterval : Count
deriving DecidableEq, Repr

/-- The decimation factor `D`, the ratio of the two rates (00_scope.md R5). -/
def Cfg.decim (c : Cfg) : Nat := c.adcRateHz / c.targetRateHz

/-- R6, "every `DEVTAB[i].cat >= 3`": the codes below 3 are the built-in outcomes (30_encoding.md R77). -/
def devCatsOk (tab : List DevRange) : Bool := tab.all fun e => 3 ≤ e.cat.toNat

/-- R5, `0 <= NDEV < 2^16`. -/
def devCountOk (tab : List DevRange) : Bool := tab.length < 2 ^ 16

/-- The two agents inside the core (10_state.md R20). Each has its own supply of free values, so that no step of one
agent can show in the other (10_state.md R21). -/
inductive Agent where
  | acq
  | proc
deriving DecidableEq, Repr

/-- OPEN (00_scope.md R5, 93_implementation_defined.md U6): the calibration constant `SCALE`. -/
opaque Config.scale : Word

/-- OPEN (93_implementation_defined.md U4): coefficient `k` of section `s`, `HP[s][k]` with k = 0 for b0 to 4 for a2. -/
opaque Config.hp : Nat → Nat → Word

/-- OPEN (93_implementation_defined.md U6): `EVENT_THRESHOLD_W`. -/
opaque Config.eventThreshold : Word

/-- OPEN (93_implementation_defined.md U6): `DEBOUNCE_MS`. -/
opaque Config.debounceMs : Time

/-- OPEN (93_implementation_defined.md U6): the device table `DEVTAB` as the build supplies it, before the check of
00_scope.md R6. -/
opaque Config.devTable : List DevRange

/-- OPEN (93_implementation_defined.md U6): `STATUS_INTERVAL`. -/
opaque Config.statusInterval : Count

/-- FREE VALUE (93_implementation_defined.md U11): the host's clock at reset, "any value". -/
opaque Config.clkAtReset : Time

/-- FREE VALUE (00_scope.md R13): the sign of the NaN that an agent's k-th draw gives. -/
opaque Config.nanSign : Agent → Nat → Bool

/-- FREE VALUE (00_scope.md R13): the fraction, less one, of the NaN that an agent's k-th draw gives. -/
opaque Config.nanFraction : Agent → Nat → Fin 8388607

/-- The NaN pattern of one draw: exponent 255 and a nonzero fraction, "which NaN it produces (sign, quiet bit, payload)
is not fixed by this spec" (00_scope.md R13). Every NaN pattern is the value of some choice of the two constants. -/
def Config.freeNan (a : Agent) (k : Nat) : Word :=
  BitVec.ofBool (Config.nanSign a k) ++ (255#8 ++ BitVec.ofNat 23 ((Config.nanFraction a k).val + 1))

/-- One section's coefficients out of the open parameter `HP`. -/
def Config.hpSection (s : Nat) : Coefs :=
  { b0 := Config.hp s 0, b1 := Config.hp s 1, b2 := Config.hp s 2, a1 := Config.hp s 3, a2 := Config.hp s 4 }

/-- The device's own configuration: the document's example values where 00_scope.md R5 gives a default, the open
constants elsewhere. A table that fails R6 builds no core (60_exceptions.md R175), so none is taken over here; which
well-formed table stands here is open. -/
def Config.build : Cfg :=
  { adcRateHz := 20000
    targetRateHz := 10
    scale := Config.scale
    hp0 := Config.hpSection 0
    hp1 := Config.hpSection 1
    hp2 := Config.hpSection 2
    ringSize := 100
    eventThreshold := Config.eventThreshold
    debounceMs := Config.debounceMs
    otherFloor := 0x42480000#32
    devTab := if devCatsOk Config.devTable && devCountOk Config.devTable then Config.devTable else []
    statusInterval := Config.statusInterval }

end Sys2Proof
end

