-- ==== Sys2Proof/Machine/State.lean ====
section
/-!
DEFINITION. The state of the core (10_state.md R20 to R36), grouped by the agent that owns it (R21), the environment's
state that a step reads (R34 and the schedule of 20_memory.md R59), the ways a step can stop, and the state after reset.
-/

namespace Sys2Proof.Machine

/-- One of the two channels (30_encoding.md R75). -/
inductive Chan where
  | ch0
  | ch1
deriving DecidableEq, Repr

/-- One of the three biquad sections of the cascade (10_state.md R27). -/
inductive Sec where
  | sec0
  | sec1
  | sec2
deriving DecidableEq, Repr

/-- The ChannelAccumulator of one channel: `sum[c]` and `n[c]` (10_state.md R22). -/
structure ChanAcc where
  sum : Word
  n   : Count
deriving DecidableEq, Repr

/-- The delay line of one biquad section: `w[s][1]` and `w[s][2]` (10_state.md R27). -/
structure Delay where
  w1 : Word
  w2 : Word
deriving DecidableEq, Repr

/-- The state ACQ owns (10_state.md R22). `draws` is the MODEL's own: how many NaN patterns ACQ has drawn
(00_scope.md R13). -/
structure Acq where
  acc0  : ChanAcc
  acc1  : ChanAcc
  draws : Nat
deriving DecidableEq, Repr

/-- The state both agents share: the hand-off cell `hv[0]`, `hv[1]`, `ready` (10_state.md R23) and the filter-reset
request `frst_pend` (R24). -/
structure Shared where
  hv0      : Word
  hv1      : Word
  ready    : Bool
  frstPend : Bool
deriving DecidableEq, Repr

/-- An EventRecord (30_encoding.md R78). `dir` is true for ON (R76). -/
structure EventRecord where
  ts    : Time
  delta : Word
  dir   : Bool
  cat   : Code8
  power : Word
deriving DecidableEq, Repr

/-- A status record (30_encoding.md R79). -/
structure StatusRecord where
  power  : Word
  bvalid : Bool
  base   : Word
  filt   : Word
deriving DecidableEq, Repr

/-- The contents of the memory space BUF (20_memory.md R51) in canonical form: pairs of an index and a 32-bit word, the
indices strictly rising, no entry holding what an unlisted index reads as (`+0.0`, 10_state.md R28). The word is the
smallest unit any rule moves and the space has no bytes (20_memory.md R55, R57). -/
abbrev Memory := List (Nat × Word)

/-- The state PROC owns (10_state.md R25 to R31) and the two output traces its stages append to (R35). `draws` is the
MODEL's own: how many NaN patterns PROC has drawn (00_scope.md R13). -/
structure Proc where
  stage  : Code8
  lv0    : Word
  lv1    : Word
  p      : Word
  y0     : Word
  y1     : Word
  y2     : Word
  d0     : Delay
  d1     : Delay
  d2     : Delay
  buf    : Memory
  cur    : Count
  full   : Bool
  last   : Time
  tnow   : Time
  ev     : Bool
  dir    : Bool
  cat    : Code8
  bvalid : Bool
  bval   : Word
  scnt   : Count
  evt    : List EventRecord
  sts    : List StatusRecord
  draws  : Nat
deriving DecidableEq, Repr

/-- One turn of the total order of atomic steps (20_memory.md R59), in the script form of 30_encoding.md R82. -/
inductive Turn where
  /-- ACQ takes the beat `cmd` the host presents (30_encoding.md R71). -/
  | beat (cmd : Beat)
  /-- PROC takes its step, where it has one (46_sequencer_io.md R150). -/
  | proc
  /-- HOST sets the clock, `CLOCK t` (10_state.md R34). -/
  | clock (t : Time)
  /-- HOST asserts reset, `RESET` (70_reset_and_hazards.md R200). -/
  | reset
  /-- A step with `cmd_valid = 0` (30_encoding.md R71). -/
  | idle
deriving DecidableEq, Repr

/-- The whole state a step reads and writes. `cfg` is the build-time configuration, which no step writes (00_scope.md R5,
10_state.md R33); `clk` is the host's clock (R34); `script` is the environment's: the turns still to come, first turn
first. It stands for every interleaving of the three agents (20_memory.md R59), since it may be any list; the core has no
such queue and no operation reads it. -/
structure State where
  cfg    : Cfg
  acq    : Acq
  shared : Shared
  proc   : Proc
  clk    : Time
  script : List Turn
deriving DecidableEq, Repr

/-- The ways a step can stop. -/
inductive Fault where
  /-- Raised by SAMPLE for a valid channel whose count already equals `D`: `raise Undefined(LockstepViolation)`, "from
  this step on nothing is specified" (60_exceptions.md R173, 40_decimator.md R92). Safe: nothing can be proved past it. -/
  | lockstepViolation
  /-- Raised by BPUSH when `cur` is no index of BUF (20_memory.md R56: "an index outside its space cannot be produced by
  any rule"). Safe: no state that a well-formed configuration reaches raises it (10_state.md R37). -/
  | bufIndexOutside
deriving DecidableEq, Repr

/-- The refusals. -/
inductive Refusal where
  /-- An operation that has no meaning yet, by its mnemonic. Raised by no arm of exec. Safe. -/
  | notModelled (mnemonic : String)
deriving DecidableEq, Repr

/-- What a step answers. -/
abbrev Result := Host.Outcome State Fault Refusal

/-- An accumulator at the start of a decimation period, and after reset (10_state.md R22). -/
def ChanAcc.zero : ChanAcc := { sum := posZero, n := 0#32 }

/-- A delay line after reset (10_state.md R27). -/
def Delay.zero : Delay := { w1 := posZero, w2 := posZero }

/-- ACQ's registers after reset (10_state.md R36). -/
def Acq.reset : Acq := { acc0 := ChanAcc.zero, acc1 := ChanAcc.zero, draws := 0 }

/-- The shared state after reset (10_state.md R36). -/
def Shared.reset : Shared := { hv0 := posZero, hv1 := posZero, ready := false, frstPend := false }

/-- PROC's registers after reset (10_state.md R36): `stage = 0x10`, everything else zero, traces empty. -/
def Proc.reset : Proc :=
  { stage := 0x10#8, lv0 := posZero, lv1 := posZero, p := posZero, y0 := posZero, y1 := posZero, y2 := posZero
    d0 := Delay.zero, d1 := Delay.zero, d2 := Delay.zero, buf := [], cur := 0#32, full := false
    last := 0#64, tnow := 0#64, ev := false, dir := false, cat := 0#8, bvalid := false, bval := posZero
    scnt := 0#32, evt := [], sts := [], draws := 0 }

/-- The machine at power-up with configuration `c` and the host's clock at `t` (70_reset_and_hazards.md R200, R201). -/
def State.initial (c : Cfg) (t : Time) : State :=
  { cfg := c, acq := Acq.reset, shared := Shared.reset, proc := Proc.reset, clk := t, script := [] }

/-- The machine right after reset (10_state.md R36): the device's configuration, a clock of which nothing is known, and
no turn scheduled. -/
def State.reset : State := State.initial Config.build Config.clkAtReset

end Sys2Proof.Machine
end

