-- ==== Sys2Proof/Machine/Binary32.lean ====
section
/-!
DEFINITION. The binary32 primitives of 00_scope.md R9 to R14: each operation computes the exact real result and rounds
it once, to nearest with ties to even. A magnitude is counted in units of `2^-149`, the least positive subnormal, so that
every finite value is a whole number of units and every exact result is a fraction of units. An operation whose result
is a NaN answers the pattern `nan` it is given (R13).
-/

namespace Sys2Proof.Machine

/-- The sign, bit 31 (00_scope.md R9). -/
def signOf (a : Word) : Bool := a.msb

/-- Bits 30:0, the magnitude's pattern: exponent and fraction (00_scope.md R9). -/
def magOf (a : Word) : Nat := a.toNat % 2 ^ 31

/-- The magnitude pattern of an infinity: exponent 255, fraction 0 (00_scope.md R9). -/
def infMag : Nat := 0x7F800000

/-- Exponent 255 with a nonzero fraction (00_scope.md R9). -/
def isNaN (a : Word) : Bool := infMag < magOf a

/-- Exponent 255 with fraction 0 (00_scope.md R9). -/
def isInf (a : Word) : Bool := magOf a == infMag

/-- `+0.0` or `-0.0` (00_scope.md R9). -/
def isZero (a : Word) : Bool := magOf a == 0

/-- Neither an infinity nor a NaN (00_scope.md R9). -/
def isFinite (a : Word) : Bool := magOf a < infMag

/-- The value of a finite magnitude pattern, in units of `2^-149`: the fraction as it is for exponent 0 (a zero or a
subnormal), else the fraction with its leading one, times `2^(exponent - 1)` (00_scope.md R9). -/
def magUnits (m : Nat) : Nat :=
  if m / 2 ^ 23 = 0 then m else (2 ^ 23 + m % 2 ^ 23) * 2 ^ (m / 2 ^ 23 - 1)

/-- The magnitude of a finite value in units of `2^-149`. -/
def unitsOf (a : Word) : Nat := magUnits (magOf a)

/-- The value of a finite pattern in units of `2^-149`. -/
def valueOf (a : Word) : Int := if signOf a then -(unitsOf a : Int) else (unitsOf a : Int)

/-- The pattern with the given sign and magnitude pattern (00_scope.md R9). -/
def packFloat (sign : Bool) (mag : Nat) : Word := BitVec.ofNat 32 ((if sign then 2 ^ 31 else 0) + mag)

/-- The exponent step of a magnitude whose whole units are `k`: how many low bits a 24-bit significand leaves out. -/
def roundShift (k : Nat) : Nat := if k < 2 ^ 24 then 0 else Nat.log2 k - 23

/-- The whole number nearest to `num / den`, ties to even. -/
def nearestEven (num den : Nat) : Nat :=
  if den < 2 * (num % den) ∨ (2 * (num % den) = den ∧ num / den % 2 = 1) then num / den + 1 else num / den

/-- The magnitude pattern of `num / den` units of `2^-149`, rounded to nearest with ties to even, subnormals kept, an
infinity on overflow (00_scope.md R10). A significand that rounds up to `2^24` carries into the exponent by itself. -/
def roundMag (num den : Nat) : Nat :=
  min (roundShift (num / den) * 2 ^ 23 + nearestEven num (den * 2 ^ roundShift (num / den))) infMag

/-- The binary32 value of sign `sign` nearest to `num / den` units. -/
def roundTo (sign : Bool) (num den : Nat) : Word := packFloat sign (roundMag num den)

/-- The infinity of a sign. -/
def infinity (sign : Bool) : Word := packFloat sign infMag

/-- The zero of a sign. -/
def zeroOf (sign : Bool) : Word := packFloat sign 0

/-- The other sign, every other bit as it is. -/
def fneg (a : Word) : Word := a ^^^ 0x80000000#32

/-- `fabs(a)`: "clears bit 31 of a and changes no other bit" (00_scope.md R12). -/
def fabs (a : Word) : Word := a &&& 0x7FFFFFFF#32

/-- `fadd(a, b)` (00_scope.md R10). -/
def fadd (nan a b : Word) : Word :=
  if isNaN a || isNaN b then nan
  else if isInf a then (if isInf b && signOf a != signOf b then nan else a)
  else if isInf b then b
  else if valueOf a + valueOf b = 0 then zeroOf (signOf a && signOf b)
  else roundTo (decide (valueOf a + valueOf b < 0)) (valueOf a + valueOf b).natAbs 1

/-- `fsub(a, b)` (00_scope.md R10): the exact difference is the exact sum with the second operand's sign changed. -/
def fsub (nan a b : Word) : Word := fadd nan a (if isNaN b then b else fneg b)

/-- `fmul(a, b)` (00_scope.md R10). -/
def fmul (nan a b : Word) : Word :=
  if isNaN a || isNaN b then nan
  else if (isInf a && isZero b) || (isZero a && isInf b) then nan
  else if isInf a || isInf b then infinity (signOf a != signOf b)
  else roundTo (signOf a != signOf b) (unitsOf a * unitsOf b) (2 ^ 149)

/-- `fdiv(a, b)` (00_scope.md R10). -/
def fdiv (nan a b : Word) : Word :=
  if isNaN a || isNaN b then nan
  else if (isInf a && isInf b) || (isZero a && isZero b) then nan
  else if isInf a || isZero b then infinity (signOf a != signOf b)
  else if isInf b then zeroOf (signOf a != signOf b)
  else roundTo (signOf a != signOf b) (unitsOf a * 2 ^ 149) (unitsOf b)

/-- `i2f(k)` (00_scope.md R14): `k` is `k * 2^149` units. -/
def i2f (k : Nat) : Word := roundTo false (k * 2 ^ 149) 1

/-- A whole number that orders the patterns that are no NaN as their values are ordered; both zeros give 0. -/
def orderKey (a : Word) : Int := if signOf a then -(magOf a : Int) else (magOf a : Int)

/-- `fgt(a, b)` (00_scope.md R12): false when either operand is a NaN. -/
def fgt (a b : Word) : Bool := !isNaN a && !isNaN b && decide (orderKey b < orderKey a)

/-- `flt(a, b)` (00_scope.md R12). -/
def flt (a b : Word) : Bool := !isNaN a && !isNaN b && decide (orderKey a < orderKey b)

/-- `fge(a, b)` (00_scope.md R12). -/
def fge (a b : Word) : Bool := !isNaN a && !isNaN b && decide (orderKey b ≤ orderKey a)

/-- `fle(a, b)` (00_scope.md R12). -/
def fle (a b : Word) : Bool := !isNaN a && !isNaN b && decide (orderKey a ≤ orderKey b)

end Sys2Proof.Machine
end

