-- ==== Sys2Proof/Machine/Operands.lean ====
section
/-!
DEFINITION. The operands of the operations: the channel a beat names (30_encoding.md R75), the accumulator of a channel,
the coefficients, input and delay line of a biquad section, and the read-only spaces COEF and DEVTAB as words
(20_memory.md R52, R53; 30_encoding.md R84).
-/

namespace Sys2Proof.Machine

/-- The channel an identifier names; none for a malformed one (30_encoding.md R75). -/
def channelOf (ch : Code8) : Option Chan :=
  if ch = 0x00#8 then some .ch0 else if ch = 0x01#8 then some .ch1 else none

/-- The other channel. -/
def Chan.other : Chan → Chan
  | .ch0 => .ch1
  | .ch1 => .ch0

/-- `sum[c]`, `n[c]` (10_state.md R22). -/
def Acq.chan (a : Acq) : Chan → ChanAcc
  | .ch0 => a.acc0
  | .ch1 => a.acc1

/-- Writes `sum[c]`, `n[c]` (10_state.md R22). -/
def Acq.setChan (a : Acq) (c : Chan) (v : ChanAcc) : Acq :=
  match c with
  | .ch0 => { a with acc0 := v }
  | .ch1 => { a with acc1 := v }

/-- `hv[c]` (10_state.md R23). -/
def Shared.pair (h : Shared) : Chan → Word
  | .ch0 => h.hv0
  | .ch1 => h.hv1

/-- The number of a section, `s` in `w[s]` and `HP[s]` (10_state.md R27). -/
def Sec.index : Sec → Nat
  | .sec0 => 0
  | .sec1 => 1
  | .sec2 => 2

/-- `HP[s]` (00_scope.md R5). -/
def sectionCoefs (c : Cfg) : Sec → Coefs
  | .sec0 => c.hp0
  | .sec1 => c.hp1
  | .sec2 => c.hp2

/-- `w[s]` (10_state.md R27). -/
def Proc.delay (q : Proc) : Sec → Delay
  | .sec0 => q.d0
  | .sec1 => q.d1
  | .sec2 => q.d2

/-- Writes `w[s]` (10_state.md R27). -/
def Proc.setDelay (q : Proc) (s : Sec) (d : Delay) : Proc :=
  match s with
  | .sec0 => { q with d0 := d }
  | .sec1 => { q with d1 := d }
  | .sec2 => { q with d2 := d }

/-- `y[s]` (10_state.md R26). -/
def Proc.output (q : Proc) : Sec → Word
  | .sec0 => q.y0
  | .sec1 => q.y1
  | .sec2 => q.y2

/-- Writes `y[s]` (10_state.md R26). -/
def Proc.setOutput (q : Proc) (s : Sec) (v : Word) : Proc :=
  match s with
  | .sec0 => { q with y0 := v }
  | .sec1 => { q with y1 := v }
  | .sec2 => { q with y2 := v }

/-- The input of a section: `p` for the first, the output of the one before for the others (42_highpass_filter.md R106
to R108, R110). -/
def Proc.sectionInput (q : Proc) : Sec → Word
  | .sec0 => q.p
  | .sec1 => q.y0
  | .sec2 => q.y1

/-- A coefficient of a section by its number `k`: 0 for b0, 1 for b1, 2 for b2, 3 for a1, 4 for a2 (20_memory.md R52). -/
def coefWord (c : Coefs) (k : Nat) : Option Word :=
  if k = 0 then some c.b0
  else if k = 1 then some c.b1
  else if k = 2 then some c.b2
  else if k = 3 then some c.a1
  else if k = 4 then some c.a2
  else none

/-- `MemRead(COEF, i)`: word `5*s + k` is `HP[s][k]`; no other word exists (20_memory.md R52). -/
def coefRead (c : Cfg) (i : Nat) : Option Word :=
  if i < 5 then coefWord c.hp0 i
  else if i < 10 then coefWord c.hp1 (i - 5)
  else coefWord c.hp2 (i - 10)

/-- The 72 bits of a table entry: `cat`, `min`, `max` from the top (30_encoding.md R84). -/
def packEntry (e : DevRange) : BitVec 72 := e.cat ++ (e.min ++ e.max)

/-- `MemRead(DEVTAB, i)`; none for an index outside 0 to NDEV-1 (20_memory.md R53). -/
def devRead (c : Cfg) (i : Nat) : Option (BitVec 72) := c.devTab[i]?.map packEntry

end Sys2Proof.Machine
end

