-- ==== Sys2Proof/Machine/Flags.lean ====
section
/-!
DEFINITION. The conditions the operations test. The core has no condition codes (10_state.md R32): its one-bit state is
written by the operations' own rules, on these conditions.
-/

namespace Sys2Proof.Machine

/-- `n[c] = D`: the channel has all the samples of its period (40_decimator.md R90). -/
def countFull (c : Cfg) (a : ChanAcc) : Bool := a.n.toNat == c.decim

/-- `n[0] = D and n[1] = D`: the period is complete (40_decimator.md R90). -/
def periodComplete (c : Cfg) (a : Acq) : Bool := countFull c a.acc0 && countFull c a.acc1

/-- `cur = N - 1`: the push that writes the last slot (43_baseline.md R120). -/
def cursorLast (c : Cfg) (q : Proc) : Bool := q.cur.toNat == c.ringSize - 1

/-- `cur < N`: the slot the cursor names exists (10_state.md R28). -/
def cursorOk (c : Cfg) (q : Proc) : Bool := decide (q.cur.toNat < c.ringSize)

/-- `((tnow - last) mod 2^64) < DEBOUNCE_MS`, unsigned: the debounce gate suppresses (44_event_detector.md R130). -/
def gateClosed (c : Cfg) (now last : Time) : Bool := decide ((now - last).toNat < c.debounceMs.toNat)

/-- `fgt(fabs(y[2]), EVENT_THRESHOLD_W)`: the magnitude test (44_event_detector.md R130). -/
def magnitudePasses (c : Cfg) (y : Word) : Bool := fgt (fabs y) c.eventThreshold

/-- `fgt(y[2], +0.0)`: the direction is ON (44_event_detector.md R130, 30_encoding.md R76). -/
def directionOn (y : Word) : Bool := fgt y posZero

/-- The tick produces an event: the gate is open and the magnitude test passes (44_event_detector.md R130). -/
def detects (c : Cfg) (now : Time) (q : Proc) : Bool := !gateClosed c now q.last && magnitudePasses c q.y2

/-- `STATUS_INTERVAL != 0` and `scnt + 1 = STATUS_INTERVAL`: a readout is due (46_sequencer_io.md R153). -/
def statusDue (c : Cfg) (q : Proc) : Bool := c.statusInterval != 0#32 && q.scnt + 1#32 == c.statusInterval

/-- PROC is blocked: `stage = 0x10`, `ready = 0` and `frst_pend = 0` (46_sequencer_io.md R150). -/
def procBlocked (s : State) : Bool := s.proc.stage == 0x10#8 && !s.shared.ready && !s.shared.frstPend

end Sys2Proof.Machine
end

