-- ==== Sys2Proof/WellFormed.lean ====
section
/-!
DEFINITION. The checks the spec makes on data before the core acts on it: a configuration (00_scope.md R6), a channel
identifier (30_encoding.md R75) and a stage code (30_encoding.md R74).
-/

namespace Sys2Proof

/-- R75: `0x00` and `0x01` are the two channels; every other value is "a malformed identifier". -/
def channelOk (ch : Code8) : Bool := ch == 0x00#8 || ch == 0x01#8

/-- An operation is well formed unless it is a SAMPLE with a malformed channel identifier (30_encoding.md R75,
40_decimator.md R90): every other field admits every bit pattern (30_encoding.md R81, R85). A malformed SAMPLE has an
encoding all the same, and its effect is to be dropped. -/
def Instr.wf : Instr → Bool
  | .sample ch _ _ => channelOk ch
  | .freset => true
  | .wait => true
  | .pwr => true
  | .bq0 => true
  | .bq1 => true
  | .bq2 => true
  | .bpush => true
  | .detect => true
  | .classify => true
  | .emit => true
  | .base => true
  | .status => true

/-- R74: the legal stage codes are the eleven from `0x10` to `0x1A`. -/
def stageOk (code : Code8) : Bool := 0x10 ≤ code.toNat && code.toNat ≤ 0x1A

/-- R6: `ADC_RATE_HZ >= 1`. -/
def Cfg.adcRateOk (c : Cfg) : Bool := 1 ≤ c.adcRateHz

/-- R6: `TARGET_RATE_HZ >= 1`. -/
def Cfg.targetRateOk (c : Cfg) : Bool := 1 ≤ c.targetRateHz

/-- R6: `ADC_RATE_HZ mod TARGET_RATE_HZ = 0`. -/
def Cfg.ratioOk (c : Cfg) : Bool := c.adcRateHz % c.targetRateHz == 0

/-- R6: `1 <= D < 2^32`. -/
def Cfg.decimOk (c : Cfg) : Bool := 1 ≤ c.decim && c.decim < 2 ^ 32

/-- R6: `1 <= N < 2^32`. -/
def Cfg.ringOk (c : Cfg) : Bool := 1 ≤ c.ringSize && c.ringSize < 2 ^ 32

/-- R6 and R5: every table category is at least 3, and `NDEV < 2^16`. -/
def Cfg.tableOk (c : Cfg) : Bool := devCatsOk c.devTab && devCountOk c.devTab

/-- A well-formed configuration (00_scope.md R6). The bounds of `DEBOUNCE_MS` and `STATUS_INTERVAL` are their types';
"no constraint is placed on the binary32 fields". -/
def Cfg.wf (c : Cfg) : Bool :=
  c.adcRateOk && c.targetRateOk && c.ratioOk && c.decimOk && c.ringOk && c.tableOk

end Sys2Proof
end

