-- ==== Sys2Proof/Machine/Ops.lean ====
section
/-!
DEFINITION. The named operations the meanings are made of: the memory space BUF, the free NaN patterns of an agent, the
hand-off, the host's steps and the reset. The core takes no exception and returns from none (60_exceptions.md R182: "there
is no trap entry and therefore no trap return"); what its conditions X1 to X10 do is in the meanings.
-/

namespace Sys2Proof.Machine

/-- What an unlisted index of BUF reads as: the slots' reset value (10_state.md R28). -/
def Memory.blank : Word := posZero

/-- `MemRead(BUF, i)` (20_memory.md R51). -/
def Memory.read : Memory → Nat → Word
  | [], _ => Memory.blank
  | (j, w) :: rest, i => if i = j then w else Memory.read rest i

/-- `MemWrite(BUF, i, v)` (20_memory.md R51), keeping the canonical form. -/
def Memory.write : Memory → Nat → Word → Memory
  | [], i, v => if v = Memory.blank then [] else [(i, v)]
  | (j, w) :: rest, i, v =>
    if i < j then (if v = Memory.blank then (j, w) :: rest else (i, v) :: (j, w) :: rest)
    else if i = j then (if v = Memory.blank then rest else (i, v) :: rest)
    else (j, w) :: Memory.write rest i v

/-- The canonical form from index `lo` on: indices rising, no entry equal to what an unlisted index reads as. -/
def Memory.wfFrom : Nat → Memory → Bool
  | _, [] => true
  | lo, (j, w) :: rest => decide (lo ≤ j) && w != Memory.blank && Memory.wfFrom (j + 1) rest

/-- The canonical form of a memory. -/
def Memory.wf (m : Memory) : Bool := Memory.wfFrom 0 m

/-- Every listed index is one of the space's 0 to `n - 1` (20_memory.md R51). -/
def Memory.within (m : Memory) (n : Nat) : Bool := m.all fun e => decide (e.1 < n)

/-- The pattern of ACQ's `i`-th NaN of this step (00_scope.md R13). -/
def State.acqNan (s : State) (i : Nat) : Word := Config.freeNan .acq (s.acq.draws + i)

/-- The pattern of PROC's `i`-th NaN of this step (00_scope.md R13). -/
def State.procNan (s : State) (i : Nat) : Word := Config.freeNan .proc (s.proc.draws + i)

/-- Replaces ACQ's registers. -/
def State.setAcq (s : State) (a : Acq) : State := { s with acq := a }

/-- Replaces the shared state. -/
def State.setShared (s : State) (h : Shared) : State := { s with shared := h }

/-- Replaces PROC's registers. -/
def State.setProc (s : State) (q : Proc) : State := { s with proc := q }

/-- One rounded addition to a channel's running sum and one to its count (40_decimator.md R90). -/
def ChanAcc.add (nan : Word) (a : ChanAcc) (raw : Word) : ChanAcc :=
  { sum := fadd nan a.sum raw, n := a.n + 1#32 }

/-- The mean of a channel, a true division by `i2f(D)` (40_decimator.md R91). -/
def channelMean (c : Cfg) (nan : Word) (a : ChanAcc) : Word := fdiv nan a.sum (i2f c.decim)

/-- `EmitPair()` (40_decimator.md R91): both means to the hand-off cell, both accumulators to zero, `ready` set, whether
or not the pair before was consumed (20_memory.md R61). -/
def emitPair (s : State) (nan0 nan1 : Word) : State :=
  { s with
    acq := { s.acq with acc0 := ChanAcc.zero, acc1 := ChanAcc.zero }
    shared := { s.shared with
      hv0 := channelMean s.cfg nan0 s.acq.acc0
      hv1 := channelMean s.cfg nan1 s.acq.acc1
      ready := true } }

/-- The filter-reset arm of WAIT: all six delay-line values to `+0.0`, `frst_pend` to 0 (46_sequencer_io.md R151). -/
def filterReset (s : State) : State :=
  { s with
    shared := { s.shared with frstPend := false }
    proc := { s.proc with d0 := Delay.zero, d1 := Delay.zero, d2 := Delay.zero, stage := 0x10#8 } }

/-- The latch arm of WAIT: the pair copied whole and `ready` cleared in one step (46_sequencer_io.md R151). -/
def latchPair (s : State) : State :=
  { s with
    shared := { s.shared with ready := false }
    proc := { s.proc with lv0 := s.shared.hv0, lv1 := s.shared.hv1, stage := 0x11#8 } }

/-- RESET: every item of core state to its reset value (70_reset_and_hazards.md R200). The configuration and the host's
clock are not touched (R201); the schedule and the supplies of free values are no state of the core and go on. -/
def State.resetCore (s : State) : State :=
  { s with
    acq := { Acq.reset with draws := s.acq.draws }
    shared := Shared.reset
    proc := { Proc.reset with draws := s.proc.draws } }

/-- `CLOCK t` (10_state.md R34). That `t` is not below the clock is the host's duty (70_reset_and_hazards.md R206), and a
host that breaks it is modelled too (60_exceptions.md R177). -/
def State.setClock (s : State) (t : Time) : State := { s with clk := t }

/-- The turn that comes next: the first of the schedule, and PROC's once the schedule is empty. -/
def State.nextTurn (s : State) : Turn :=
  match s.script with
  | [] => .proc
  | t :: _ => t

/-- The state with its next turn taken from the schedule. -/
def State.popTurn (s : State) : State := { s with script := s.script.tail }

/-- The core built for a configuration, with the host's clock at `t`; none for an ill-formed one: "the configuration is
refused when the core is built" (60_exceptions.md R175, 00_scope.md R6). -/
def State.powerUp (c : Cfg) (t : Time) : Option State :=
  if c.wf then some (State.initial c t) else none

end Sys2Proof.Machine
end

