-- ==== Sys2Proof/Machine/Baseline.lean ====
section
/-!
DEFINITION. The baseline estimator (43_baseline.md): BPUSH and BASE.
-/

namespace Sys2Proof.Machine

/-- BPUSH (43_baseline.md R120): the sample to the slot at the cursor; the cursor on, to 0 after the last slot, which
also sets `full`. A cursor that is no index of BUF stops the machine (20_memory.md R56). -/
def execBpush (s : State) : Result :=
  if cursorOk s.cfg s.proc then
    .next (s.setProc { s.proc with
      buf := s.proc.buf.write s.proc.cur.toNat s.proc.p
      cur := if cursorLast s.cfg s.proc then 0#32 else s.proc.cur + 1#32
      full := s.proc.full || cursorLast s.cfg s.proc
      stage := 0x16#8 })
  else .fault .bufIndexOutside

/-- The sum of the first `k` slots in index order from `+0.0`, one rounded addition a slot (43_baseline.md R121). -/
def sumSlots (nan : Nat → Word) (m : Memory) : Nat → Word
  | 0 => posZero
  | k + 1 => fadd (nan k) (sumSlots nan m k) (m.read k)

/-- The mean of the `k` slots (43_baseline.md R121). -/
def ringMean (nan : Nat → Word) (m : Memory) (k : Nat) : Word := fdiv (nan k) (sumSlots nan m k) (i2f k)

/-- BASE (43_baseline.md R121): the mean of all slots once the buffer has filled, else "unavailable" with `+0.0`
(92_eei_decisions.md D32). -/
def execBase (s : State) : Result :=
  .next (s.setProc { s.proc with
    bvalid := s.proc.full
    bval := if s.proc.full then ringMean s.procNan s.proc.buf s.cfg.ringSize else posZero
    stage := 0x1A#8
    draws := s.proc.draws + (s.cfg.ringSize + 1) })

end Sys2Proof.Machine
end

