-- ==== Sys2Proof/Machine/Classifier.lean ====
section
/-!
DEFINITION. The device classifier (45_classifier.md): the lookup function and CLASSIFY.
-/

namespace Sys2Proof.Machine

/-- The category `Unknown` (30_encoding.md R77). -/
def catUnknown : Code8 := 0x00#8

/-- The category `Other` (30_encoding.md R77). -/
def catOther : Code8 := 0x01#8

/-- An entry's inclusive range contains the magnitude `m` (45_classifier.md R140). -/
def inRange (m : Word) (e : DevRange) : Bool := fle e.min m && fle m e.max

/-- The first entry, in declared order, whose range contains `m` (45_classifier.md R140, R142). -/
def firstMatch (m : Word) : List DevRange → Option DevRange
  | [] => none
  | e :: rest => if inRange m e then some e else firstMatch m rest

/-- `Classify(x)` (45_classifier.md R140). -/
def classifyValue (c : Cfg) (x : Word) : Code8 :=
  match firstMatch (fabs x) c.devTab with
  | some e => e.cat
  | none => if fgt (fabs x) c.otherFloor then catOther else catUnknown

/-- CLASSIFY (45_classifier.md R141): the operand is the filtered value (90_conflicts.md C2). -/
def execClassify (s : State) : Result :=
  .next (s.setProc { s.proc with cat := classifyValue s.cfg s.proc.y2, stage := 0x18#8 })

end Sys2Proof.Machine
end

