-- ==== Sys2Proof/Machine/Decimator.lean ====
section
/-!
DEFINITION. The sample accumulator (40_decimator.md): SAMPLE, with the pair emission as its tail.
-/

namespace Sys2Proof.Machine

/-- The accepted SAMPLE on channel `c`: one addition to its sum and one to its count, and the pair emission when both
updated counts are `D` (40_decimator.md R90, R91). -/
def acceptSample (c : Chan) (raw : Word) (s : State) : State :=
  let a := s.acq.setChan c ((s.acq.chan c).add (s.acqNan 0) raw)
  let t := s.setAcq { a with draws := s.acq.draws + 3 }
  if periodComplete s.cfg a then emitPair t (s.acqNan 1) (s.acqNan 2) else t

/-- SAMPLE (40_decimator.md R90). A malformed channel is dropped (60_exceptions.md R171); a full count is the undefined
case (R173); `ts` is read by no rule (30_encoding.md R81). -/
def execSample (ch : Code8) (raw : Word) (_ts : Time) (s : State) : Result :=
  match channelOf ch with
  | none => .next s
  | some c => if countFull s.cfg (s.acq.chan c) then .fault .lockstepViolation else .next (acceptSample c raw s)

end Sys2Proof.Machine
end

