-- ==== Sys2Proof/Machine/Detector.lean ====
section
/-!
DEFINITION. The event detector (44_event_detector.md): DETECT.
-/

namespace Sys2Proof.Machine

/-- The category of every OFF event, `NotApplicable` (30_encoding.md R77). -/
def catNotApplicable : Code8 := 0x02#8

/-- The stage after DETECT: BASE without an event, CLASSIFY on an ON event, EMIT on an OFF event
(44_event_detector.md R131). -/
def stageAfterDetect (ev on : Bool) : Code8 := if !ev then 0x19#8 else if on then 0x17#8 else 0x18#8

/-- PROC's registers after DETECT at clock `now` (44_event_detector.md R130, R131): `last`, `dir` and `cat` are written
on an accepted detection only, `cat` on an OFF event only. -/
def detectProc (c : Cfg) (now : Time) (q : Proc) : Proc :=
  let ev := detects c now q
  let on := directionOn q.y2
  { q with
    tnow := now
    ev := ev
    last := if ev then now else q.last
    dir := if ev then on else q.dir
    cat := if ev && !on then catNotApplicable else q.cat
    stage := stageAfterDetect ev on }

/-- DETECT (44_event_detector.md R130). The clock is sampled once. -/
def execDetect (s : State) : Result := .next (s.setProc (detectProc s.cfg s.clk s.proc))

end Sys2Proof.Machine
end

