-- ==== Sys2Proof/Machine/Filter.lean ====
section
/-!
DEFINITION. The cascaded high-pass filter (42_highpass_filter.md): the section function, BQ0, BQ1, BQ2 and FRESET.
-/

namespace Sys2Proof.Machine

/-- The output of a section, `y <- fadd(fmul(b0, x), w[s][1])` (42_highpass_filter.md R105). -/
def biquadOut (nan : Nat → Word) (c : Coefs) (w : Delay) (x : Word) : Word :=
  fadd (nan 1) (fmul (nan 0) c.b0 x) w.w1

/-- The delay line a section leaves, from its input `x` and its output `y` (42_highpass_filter.md R105): `n1` uses the old
`w[s][2]`, `n2` no old value. -/
def biquadDelay (nan : Nat → Word) (c : Coefs) (w : Delay) (x y : Word) : Delay :=
  { w1 := fadd (nan 5) (fsub (nan 4) (fmul (nan 2) c.b1 x) (fmul (nan 3) c.a1 y)) w.w2
    w2 := fsub (nan 8) (fmul (nan 6) c.b2 x) (fmul (nan 7) c.a2 y) }

/-- One section of the cascade as PROC's registers see it: the input, the output `y[k]` and the delay line `w[k]`
(42_highpass_filter.md R105 to R108). -/
def runSection (k : Sec) (next : Code8) (s : State) : State :=
  let c := sectionCoefs s.cfg k
  let x := s.proc.sectionInput k
  let y := biquadOut s.procNan c (s.proc.delay k) x
  s.setProc { (s.proc.setOutput k y).setDelay k (biquadDelay s.procNan c (s.proc.delay k) x y) with
    stage := next
    draws := s.proc.draws + 9 }

/-- BQ0 (42_highpass_filter.md R106). -/
def execBq0 (s : State) : Result := .next (runSection .sec0 0x13#8 s)

/-- BQ1 (42_highpass_filter.md R107). -/
def execBq1 (s : State) : Result := .next (runSection .sec1 0x14#8 s)

/-- BQ2 (42_highpass_filter.md R108). -/
def execBq2 (s : State) : Result := .next (runSection .sec2 0x15#8 s)

/-- FRESET (42_highpass_filter.md R109): `frst_pend <- 1`; PROC's next WAIT performs the reset. -/
def execFreset (s : State) : Result := .next (s.setShared { s.shared with frstPend := true })

end Sys2Proof.Machine
end

