-- ==== Sys2Proof/Machine/Power.lean ====
section
/-!
DEFINITION. The power estimator (41_power_estimator.md): PWR.
-/

namespace Sys2Proof.Machine

/-- `|v1 * v2 * scale|`, the product taken left to right and then rectified (41_power_estimator.md R100). -/
def powerOf (nanT nanU scale v1 v2 : Word) : Word := fabs (fmul nanU (fmul nanT v1 v2) scale)

/-- PWR (41_power_estimator.md R100). -/
def execPwr (s : State) : Result :=
  .next (s.setProc { s.proc with
    p := powerOf (s.procNan 0) (s.procNan 1) s.cfg.scale s.proc.lv0 s.proc.lv1
    stage := 0x12#8
    draws := s.proc.draws + 2 })

end Sys2Proof.Machine
end

