-- ==== Sys2Proof/Machine/Sequencer.lean ====
section
/-!
DEFINITION. The processing sequencer and the output ports (46_sequencer_io.md): WAIT, EMIT and STATUS.
-/

namespace Sys2Proof.Machine

/-- WAIT (46_sequencer_io.md R151): the filter reset is served before the pair. With neither flag set PROC has no step:
"all state survives it unchanged" (60_exceptions.md R187). -/
def execWait (s : State) : Result :=
  .next (if s.shared.frstPend then filterReset s else if s.shared.ready then latchPair s else s)

/-- The EventRecord of this tick's registers (44_event_detector.md R132, 30_encoding.md R78). -/
def eventOf (q : Proc) : EventRecord := { ts := q.tnow, delta := q.y2, dir := q.dir, cat := q.cat, power := q.p }

/-- EMIT (46_sequencer_io.md R152). -/
def execEmit (s : State) : Result :=
  .next (s.setProc { s.proc with evt := s.proc.evt ++ [eventOf s.proc], stage := 0x19#8 })

/-- The status record of this tick's registers (30_encoding.md R79). -/
def statusOf (q : Proc) : StatusRecord := { power := q.p, bvalid := q.bvalid, base := q.bval, filt := q.y2 }

/-- STATUS (46_sequencer_io.md R153): the record and a fresh count when a readout is due, one more tick counted when it
is not, neither with the readout switched off. -/
def execStatus (s : State) : Result :=
  .next (s.setProc { s.proc with
    sts := if statusDue s.cfg s.proc then s.proc.sts ++ [statusOf s.proc] else s.proc.sts
    scnt :=
      if s.cfg.statusInterval = 0#32 then s.proc.scnt
      else if statusDue s.cfg s.proc then 0#32
      else s.proc.scnt + 1#32
    stage := 0x10#8 })

end Sys2Proof.Machine
end

