-- ==== Sys2Proof/Machine/Dispatch.lean ====
section
/-!
DEFINITION. The dispatch of the thirteen operations to their meanings.
-/

namespace Sys2Proof.Machine

/-- The effect of one operation (30_encoding.md R73, R74). -/
def exec (i : Instr) (s : State) : Host.Outcome State Fault Refusal :=
  match i with
  | .sample ch raw ts => Sys2Proof.Machine.execSample ch raw ts s
  | .freset => Sys2Proof.Machine.execFreset s
  | .wait => Sys2Proof.Machine.execWait s
  | .pwr => Sys2Proof.Machine.execPwr s
  | .bq0 => Sys2Proof.Machine.execBq0 s
  | .bq1 => Sys2Proof.Machine.execBq1 s
  | .bq2 => Sys2Proof.Machine.execBq2 s
  | .bpush => Sys2Proof.Machine.execBpush s
  | .detect => Sys2Proof.Machine.execDetect s
  | .classify => Sys2Proof.Machine.execClassify s
  | .emit => Sys2Proof.Machine.execEmit s
  | .base => Sys2Proof.Machine.execBase s
  | .status => Sys2Proof.Machine.execStatus s

end Sys2Proof.Machine
end

