-- ==== Sys2Proof/Machine/Turns.lean ====
section
/-!
DEFINITION. What an agent does with its turn (10_state.md R20, 20_memory.md R59).
-/

namespace Sys2Proof.Machine

/-- The agent's operation, where its code stands for one. Where it stands for none no state changes: a reserved beat is
dropped (30_encoding.md R80), and at an illegal stage PROC has no enabled step (93_implementation_defined.md U7). -/
def runCode (c : Code) (s : State) : Result :=
  match decode c with
  | .ok i => exec i s
  | .error _ => .next s

/-- The step that a turn is, from the state with the turn already taken from the schedule. PROC's turn runs the operation
its `stage` register selects: "there is no instruction memory and nothing is fetched" (10_state.md R25). -/
def takeTurn (t : Turn) (s : State) : Result :=
  match t with
  | .beat cmd => runCode (.beat cmd) s
  | .proc => runCode (.stage s.proc.stage) s
  | .clock now => .next (s.setClock now)
  | .reset => .next s.resetCore
  | .idle => .next s

end Sys2Proof.Machine
end

