-- ==== Sys2Proof/Machine/Step.lean ====
section
/-!
DEFINITION. One atomic step (20_memory.md R59): the next turn is taken from the schedule, and the agent it names takes
its step.
-/

namespace Sys2Proof.Machine

/-- One step of the machine. -/
def step (s : State) : Host.Outcome State Fault Refusal := takeTurn s.nextTurn s.popTurn

/-- `s` with an operation placed where the next step takes it from: a beat as the schedule's next turn, a stage code in
the `stage` register with PROC's turn next. -/
def State.withFetchWord (s : State) (nbits w : Nat) : State :=
  match codeOfTableWord nbits w with
  | .beat cmd => { s with script := .beat cmd :: s.script }
  | .stage code => { s with proc := { s.proc with stage := code }, script := .proc :: s.script }

end Sys2Proof.Machine
end

