-- ==== Sys2Proof/Machine/Records.lean ====
section
/-!
DEFINITION. The bit layouts of the records on the two output ports (30_encoding.md R78, R79), and what the ports show for
one step (46_sequencer_io.md R155, R156).
-/

namespace Sys2Proof.Machine

/-- `evt[136:0]` of an EventRecord: `ts`, `delta`, `dir`, `cat`, `power` from the top (30_encoding.md R78). -/
def packEvent (r : EventRecord) : BitVec 137 := r.ts ++ (r.delta ++ (BitVec.ofBool r.dir ++ (r.cat ++ r.power)))

/-- The EventRecord that 137 bits stand for (30_encoding.md R78). -/
def unpackEvent (b : BitVec 137) : EventRecord :=
  { ts := b.extractLsb' 73 64, delta := b.extractLsb' 41 32, dir := b.getLsbD 40
    cat := b.extractLsb' 32 8, power := b.extractLsb' 0 32 }

/-- `st[96:0]` of a status record: `power`, `bvalid`, `base`, `filt` from the top (30_encoding.md R79). -/
def packStatus (r : StatusRecord) : BitVec 97 := r.power ++ (BitVec.ofBool r.bvalid ++ (r.base ++ r.filt))

/-- The status record that 97 bits stand for (30_encoding.md R79). -/
def unpackStatus (b : BitVec 97) : StatusRecord :=
  { power := b.extractLsb' 65 32, bvalid := b.getLsbD 64, base := b.extractLsb' 32 32, filt := b.extractLsb' 0 32 }

/-- What the event port shows in the step from `s` to `t`: `evt_valid = 1` with the record the step appended to `EVT`,
else nothing. "Which is the same thing as appending the record to `EVT`" (30_encoding.md R78). -/
def eventPort (s t : State) : Option (BitVec 137) :=
  if t.proc.evt.length = s.proc.evt.length + 1 then t.proc.evt.getLast?.map packEvent else none

/-- What the status port shows in the step from `s` to `t` (30_encoding.md R79). -/
def statusPort (s t : State) : Option (BitVec 97) :=
  if t.proc.sts.length = s.proc.sts.length + 1 then t.proc.sts.getLast?.map packStatus else none

end Sys2Proof.Machine
end

