-- ==== Sys2Proof/Safety.lean ====
section
/-!
DEFINITION. What the statements about the machine speak of: correct rounding, the biquad equations, the invariants of
10_state.md R37 and of the event trace, the history a ring buffer holds, a decimation period, and sameness up to the
choice of NaN patterns.
-/

namespace Sys2Proof.Machine

/-! ### Numbers -/

/-- The distance of two whole numbers. -/
def natDist (a b : Nat) : Nat := (a - b) + (b - a)

/-- The finite magnitude pattern `m` is as near to `num / den` units as any finite magnitude pattern, and where another
is equally near `m` is even (00_scope.md R10: "to nearest with ties to even"). Distances are taken times `den`. -/
def NearestFinite (num den m : Nat) : Prop :=
  ∀ k, k < infMag →
    natDist num (den * magUnits m) ≤ natDist num (den * magUnits k) ∧
    (natDist num (den * magUnits m) = natDist num (den * magUnits k) → k ≠ m → m % 2 = 0)

/-- `m` is the magnitude pattern that 00_scope.md R10 gives the exact result `num / den` units: the nearest finite one,
or an infinity from half a unit in the last place above the largest finite value on. -/
def RoundsTo (num den m : Nat) : Prop :=
  (m = infMag ∧ (2 ^ 25 - 1) * 2 ^ 252 * den ≤ num) ∨
  (m < infMag ∧ num < (2 ^ 25 - 1) * 2 ^ 252 * den ∧ NearestFinite num den m)

/-- The nine roundings of a section in the order of 42_highpass_filter.md R105, with the temporaries named there: from
the input `x` and the delay line `w` to the output `y` and the delay line `w'`. -/
def BiquadRule (nan : Nat → Word) (c : Coefs) (w : Delay) (x y : Word) (w' : Delay) : Prop :=
  ∃ t0 t1 t2 t3 t4 t5 : Word,
    t0 = fmul (nan 0) c.b0 x ∧ y = fadd (nan 1) t0 w.w1 ∧
    t1 = fmul (nan 2) c.b1 x ∧ t2 = fmul (nan 3) c.a1 y ∧ t3 = fsub (nan 4) t1 t2 ∧ w'.w1 = fadd (nan 5) t3 w.w2 ∧
    t4 = fmul (nan 6) c.b2 x ∧ t5 = fmul (nan 7) c.a2 y ∧ w'.w2 = fsub (nan 8) t4 t5

/-! ### Invariants -/

/-- The invariants of 10_state.md R37 but for the one on `last`, which `EventInv` holds, and the canonical form of the
ring buffer. -/
structure CoreInv (s : State) : Prop where
  cfgOk     : s.cfg.wf = true
  countLe   : ∀ c : Chan, (s.acq.chan c).n.toNat ≤ s.cfg.decim
  openPeriod : ¬ ((s.acq.chan .ch0).n.toNat = s.cfg.decim ∧ (s.acq.chan .ch1).n.toNat = s.cfg.decim)
  curLt     : s.proc.cur.toNat < s.cfg.ringSize
  stageLegal : stageOk s.proc.stage = true
  scntLt    : s.proc.scnt.toNat < max s.cfg.statusInterval.toNat 1
  powerSign : signOf s.proc.p = false
  bufWf     : s.proc.buf.wf = true
  bufWithin : s.proc.buf.within s.cfg.ringSize = true

/-- Consecutive records lie at least a debounce window apart, the difference of their times taken modulo `2^64` as the
gate takes it (44_event_detector.md R130). -/
def eventsSpaced (window : Time) : List EventRecord → Bool
  | r :: q :: rest => decide (window.toNat ≤ (q.ts - r.ts).toNat) && eventsSpaced window (q :: rest)
  | _ => true

/-- The invariants of the event trace: the records are spaced by the debounce window; exactly the OFF records carry the
category `NotApplicable` (30_encoding.md R77); `last` is the last record's time, or 0 before the first (10_state.md
R37), except between an accepted detection and its EMIT, when it is `tnow` and the record is still to come. -/
structure EventInv (s : State) : Prop where
  catsOk     : devCatsOk s.cfg.devTab = true
  stageLegal : stageOk s.proc.stage = true
  spaced     : eventsSpaced s.cfg.debounceMs s.proc.evt = true
  records    : ∀ r ∈ s.proc.evt, (r.dir = false ↔ r.cat = 0x02#8)
  settled    : s.proc.stage ≠ 0x17#8 → s.proc.stage ≠ 0x18#8 →
    match s.proc.evt.getLast? with
    | none => s.proc.last = 0#64
    | some r => s.proc.last = r.ts
  pending    : s.proc.stage = 0x17#8 ∨ s.proc.stage = 0x18#8 →
    s.proc.ev = true ∧ s.proc.last = s.proc.tnow ∧
    ∀ r, s.proc.evt.getLast? = some r → s.cfg.debounceMs.toNat ≤ (s.proc.tnow - r.ts).toNat
  onPath     : s.proc.stage = 0x17#8 → s.proc.dir = true
  emitPath   : s.proc.stage = 0x18#8 → (s.proc.dir = false ↔ s.proc.cat = 0x02#8)

/-! ### Histories -/

/-- `hist` is the list of the PowerSamples pushed since reset, oldest first: the cursor, the flag and the slots are as
43_baseline.md R123 gives them, the sample of push `j` (from 0) standing in slot `j mod N` for the last `N` pushes. -/
def RingHolds (s : State) (hist : List Word) : Prop :=
  s.proc.cur.toNat = hist.length % s.cfg.ringSize ∧
  s.proc.full = decide (s.cfg.ringSize ≤ hist.length) ∧
  ∀ (j : Nat) (v : Word), hist[j]? = some v → hist.length ≤ j + s.cfg.ringSize →
    s.proc.buf.read (j % s.cfg.ringSize) = v

/-- The identifier of a channel (30_encoding.md R75). -/
def channelCode : Chan → Code8
  | .ch0 => 0x00#8
  | .ch1 => 0x01#8

/-- The SAMPLE commands of a list, one after the other. -/
def feed (s : State) : List (Chan × Word × Time) → Result
  | [] => .next s
  | (c, raw, ts) :: rest =>
    match exec (.sample (channelCode c) raw ts) s with
    | .next t => feed t rest
    | .fault f => .fault f
    | .refused r => .refused r

/-- The samples of one channel in arrival order. -/
def samplesOf (c : Chan) (xs : List (Chan × Word × Time)) : List Word :=
  (xs.filter fun x => decide (x.1 = c)).map fun x => x.2.1

/-- `r` is a sum of the samples on top of `a`, in their order, one rounded addition a sample, whatever NaN pattern an
addition answers (40_decimator.md R93, 00_scope.md R13). -/
inductive SumOf : Word → List Word → Word → Prop where
  | done (a : Word) : SumOf a [] a
  | add (nan a v r : Word) (vs : List Word) : isNaN nan = true → SumOf (fadd nan a v) vs r → SumOf a (v :: vs) r

/-! ### Sameness up to the choice of NaN patterns (00_scope.md R13) -/

/-- The same pattern, or two NaNs. -/
def SameNum (a b : Word) : Prop := a = b ∨ (isNaN a = true ∧ isNaN b = true)

/-- Accumulators that agree up to NaN patterns. -/
def SameAcc (a b : ChanAcc) : Prop := SameNum a.sum b.sum ∧ a.n = b.n

/-- Delay lines that agree up to NaN patterns. -/
def SameDelay (a b : Delay) : Prop := SameNum a.w1 b.w1 ∧ SameNum a.w2 b.w2

/-- EventRecords that agree up to NaN patterns. -/
def SameEvent (a b : EventRecord) : Prop :=
  a.ts = b.ts ∧ SameNum a.delta b.delta ∧ a.dir = b.dir ∧ a.cat = b.cat ∧ SameNum a.power b.power

/-- Status records that agree up to NaN patterns. -/
def SameStatus (a b : StatusRecord) : Prop :=
  SameNum a.power b.power ∧ a.bvalid = b.bvalid ∧ SameNum a.base b.base ∧ SameNum a.filt b.filt

/-- States that agree in everything but the choice of NaN patterns: the supplies of free values may differ, every binary32
item is the same pattern or a NaN in both, everything else is equal. -/
structure SameUpToNaN (s t : State) : Prop where
  cfg    : s.cfg = t.cfg
  clk    : s.clk = t.clk
  script : s.script = t.script
  acc    : ∀ c : Chan, SameAcc (s.acq.chan c) (t.acq.chan c)
  pair   : ∀ c : Chan, SameNum (s.shared.pair c) (t.shared.pair c)
  ready  : s.shared.ready = t.shared.ready
  pend   : s.shared.frstPend = t.shared.frstPend
  stage  : s.proc.stage = t.proc.stage
  lv0    : SameNum s.proc.lv0 t.proc.lv0
  lv1    : SameNum s.proc.lv1 t.proc.lv1
  p      : SameNum s.proc.p t.proc.p
  y      : ∀ k : Sec, SameNum (s.proc.output k) (t.proc.output k)
  delay  : ∀ k : Sec, SameDelay (s.proc.delay k) (t.proc.delay k)
  buf    : ∀ i : Nat, SameNum (s.proc.buf.read i) (t.proc.buf.read i)
  cur    : s.proc.cur = t.proc.cur
  full   : s.proc.full = t.proc.full
  last   : s.proc.last = t.proc.last
  tnow   : s.proc.tnow = t.proc.tnow
  ev     : s.proc.ev = t.proc.ev
  dir    : s.proc.dir = t.proc.dir
  cat    : s.proc.cat = t.proc.cat
  bvalid : s.proc.bvalid = t.proc.bvalid
  bval   : SameNum s.proc.bval t.proc.bval
  scnt   : s.proc.scnt = t.proc.scnt
  evt    : List.Forall₂ SameEvent s.proc.evt t.proc.evt
  sts    : List.Forall₂ SameStatus s.proc.sts t.proc.sts

/-- Outcomes that agree: both a next state, the two the same up to NaN patterns, or the same stop. -/
def SameOutcome : Result → Result → Prop
  | .next s, .next t => SameUpToNaN s t
  | .fault f, .fault g => f = g
  | .refused f, .refused g => f = g
  | _, _ => False

end Sys2Proof.Machine
end

