-- ==== Sys2Proof/Certificates/Slice0/Obligations.lean ====
section
/-!
DEFINITION. The statements about the machine, for the provers. Each says which rule of spec/ it rests on.
-/

open Sys2Proof Sys2Proof.Machine

/-! ### Encodings (30_encoding.md) -/

/-- Decoding an operation's code gives the operation back, for every operation with every operand; and a code that decodes
to an operation other than FRESET is that operation's only code, so no bit of it is dropped (30_encoding.md R71 to R74).
FRESET's code is not the only one: its fields are read by no rule (R81). -/
def Obligations.DecodeInvertsEncode : Prop :=
  (∀ i : Instr, decode (encode i) = .ok i) ∧
  (∀ (cmd : Beat) (i : Instr), decodeBeat cmd = .ok i → i ≠ .freset → encode i = .beat cmd) ∧
  (∀ (code : Code8) (i : Instr), decodeStage code = .ok i → encode i = .stage code)

/-- R73 with the fields of R71: a beat is read by its four fields; `0x01` is SAMPLE, `0x02` is FRESET whatever its other
fields hold, every other operation code is reserved. -/
def Obligations.BeatsDecodeByOpcode : Prop :=
  ∀ (op ch : Code8) (raw : Word) (ts : Time),
    decodeBeat (op ++ (ch ++ (raw ++ ts))) =
      (if op = 0x01#8 then .ok (.sample ch raw ts)
       else if op = 0x02#8 then .ok .freset
       else .error (.reservedOpcode op))

/-- R74: the eleven stage codes in order, and no others. -/
def Obligations.StageCodesDecode : Prop :=
  decodeStage 0x10#8 = .ok .wait ∧ decodeStage 0x11#8 = .ok .pwr ∧ decodeStage 0x12#8 = .ok .bq0 ∧
  decodeStage 0x13#8 = .ok .bq1 ∧ decodeStage 0x14#8 = .ok .bq2 ∧ decodeStage 0x15#8 = .ok .bpush ∧
  decodeStage 0x16#8 = .ok .detect ∧ decodeStage 0x17#8 = .ok .classify ∧ decodeStage 0x18#8 = .ok .emit ∧
  decodeStage 0x19#8 = .ok .base ∧ decodeStage 0x1A#8 = .ok .status ∧
  ∀ code : Code8, (code.toNat < 0x10 ∨ 0x1A < code.toNat) → decodeStage code = .error (.illegalStage code)

/-- R86, R73: the decoder and the opcode table agree: a code decodes to an operation exactly when, of the table's rows, it
is that operation's row whose match it has under the row's mask. -/
def Obligations.DecoderAgreesWithOpcodeTable : Prop :=
  ∀ (c : Code) (j : Instr),
    (tableRow j).fits c = true ↔ ∃ i, decode c = .ok i ∧ tableRow i = tableRow j

/-- Some words of 95_test_vectors.md, read as spec/opcode_table.json numbers their bits, decode to the operations written
beside them there; a reserved and an all-zero beat (V-SEQ-8) decode to none. -/
def Obligations.TableWordsDecode : Prop :=
  decodeTableWord 112 0x0100404000000000000000000000 = some (.sample 0x00#8 0x40400000#32 0#64) ∧
  decodeTableWord 112 0x010140C000000000000000000000 = some (.sample 0x01#8 0x40C00000#32 0#64) ∧
  decodeTableWord 112 0x0200000000000000000000000000 = some .freset ∧
  decodeTableWord 112 0x7F00411000000000000000000000 = none ∧
  decodeTableWord 112 0 = none ∧
  decodeTableWord 8 0x16 = some .detect

/-- R78, R79, R84: each field of the records and of a table entry stands at the bits the rule gives it, and a record can
be read back from its bits. -/
def Obligations.RecordFieldsStandAtTheirBits : Prop :=
  (∀ r : EventRecord,
    (packEvent r).extractLsb' 73 64 = r.ts ∧ (packEvent r).extractLsb' 41 32 = r.delta ∧
    (packEvent r).getLsbD 40 = r.dir ∧ (packEvent r).extractLsb' 32 8 = r.cat ∧
    (packEvent r).extractLsb' 0 32 = r.power) ∧
  (∀ b : BitVec 137, packEvent (unpackEvent b) = b) ∧
  (∀ r : StatusRecord,
    (packStatus r).extractLsb' 65 32 = r.power ∧ (packStatus r).getLsbD 64 = r.bvalid ∧
    (packStatus r).extractLsb' 32 32 = r.base ∧ (packStatus r).extractLsb' 0 32 = r.filt) ∧
  (∀ b : BitVec 97, packStatus (unpackStatus b) = b) ∧
  (∀ e : DevRange,
    (packEntry e).extractLsb' 64 8 = e.cat ∧ (packEntry e).extractLsb' 32 32 = e.min ∧
    (packEntry e).extractLsb' 0 32 = e.max)

/-- R52, R53: the words of COEF and the entries of DEVTAB; no index outside reads. -/
def Obligations.ReadOnlySpacesHoldTheConfiguration : Prop :=
  ∀ c : Cfg,
    (∀ k : Sec,
      coefRead c (5 * k.index) = some (sectionCoefs c k).b0 ∧
      coefRead c (5 * k.index + 1) = some (sectionCoefs c k).b1 ∧
      coefRead c (5 * k.index + 2) = some (sectionCoefs c k).b2 ∧
      coefRead c (5 * k.index + 3) = some (sectionCoefs c k).a1 ∧
      coefRead c (5 * k.index + 4) = some (sectionCoefs c k).a2) ∧
    (∀ i, 15 ≤ i → coefRead c i = none) ∧
    (∀ i e, c.devTab[i]? = some e → devRead c i = some (packEntry e)) ∧
    (∀ i, c.devTab.length ≤ i → devRead c i = none)

/-! ### Numerics (00_scope.md) -/

/-- R10: the rounding function gives the nearest finite pattern, ties to even, subnormals kept, and an infinity exactly
from half a unit in the last place above the largest finite value on. -/
def Obligations.RoundingIsNearestEven : Prop :=
  ∀ num den : Nat, 0 < den → RoundsTo num den (roundMag num den)

/-- R10: `fadd` and `fsub` of finite operands are the exact sum and difference rounded once; where that is zero, the sign
is negative only where both operands (for `fsub`, the first and the negated second) are negative zeros. -/
def Obligations.SumsRoundTheExactValueOnce : Prop :=
  ∀ nan a b : Word, isFinite a = true → isFinite b = true →
    (RoundsTo (valueOf a + valueOf b).natAbs 1 (magOf (fadd nan a b)) ∧
      (valueOf a + valueOf b ≠ 0 → signOf (fadd nan a b) = decide (valueOf a + valueOf b < 0)) ∧
      (valueOf a + valueOf b = 0 → signOf (fadd nan a b) = (signOf a && signOf b))) ∧
    (RoundsTo (valueOf a - valueOf b).natAbs 1 (magOf (fsub nan a b)) ∧
      (valueOf a - valueOf b ≠ 0 → signOf (fsub nan a b) = decide (valueOf a - valueOf b < 0)) ∧
      (valueOf a - valueOf b = 0 → signOf (fsub nan a b) = (signOf a && !signOf b)))

/-- R10: `fmul` of finite operands is the exact product rounded once, and `fdiv` of finite operands with a nonzero
divisor the exact quotient; the sign is the exclusive-or of the operands' signs. Values are counted in units of
`2^-149`. -/
def Obligations.ProductsAndQuotientsRoundTheExactValueOnce : Prop :=
  ∀ nan a b : Word, isFinite a = true → isFinite b = true →
    (RoundsTo (unitsOf a * unitsOf b) (2 ^ 149) (magOf (fmul nan a b)) ∧
      signOf (fmul nan a b) = xor (signOf a) (signOf b)) ∧
    (isZero b = false →
      RoundsTo (unitsOf a * 2 ^ 149) (unitsOf b) (magOf (fdiv nan a b)) ∧
      signOf (fdiv nan a b) = xor (signOf a) (signOf b))

/-- R10, for the operands that are no two finite values with a nonzero divisor. Exactly the invalid operations and those
with a NaN operand give a NaN, whichever NaN pattern is drawn. Where no NaN results: a sum or a difference with one
infinite operand is that infinity (a subtracted one with its sign changed), and so is a sum of two infinities of like sign
and a difference of two of unlike sign; a product with an infinite operand is an infinity; a quotient is an infinity where
the dividend is infinite, or the dividend is not zero and the divisor is, and a zero where a finite value is divided by an
infinity; the sign of a product and of a quotient is the exclusive-or of the operands' signs. -/
def Obligations.SpecialValuesFollowTheRules : Prop :=
  ∀ nan a b : Word, isNaN nan = true →
    isNaN (fadd nan a b) = (isNaN a || isNaN b || (isInf a && isInf b && signOf a != signOf b)) ∧
    isNaN (fsub nan a b) = (isNaN a || isNaN b || (isInf a && isInf b && signOf a == signOf b)) ∧
    isNaN (fmul nan a b) = (isNaN a || isNaN b || (isInf a && isZero b) || (isZero a && isInf b)) ∧
    isNaN (fdiv nan a b) = (isNaN a || isNaN b || (isInf a && isInf b) || (isZero a && isZero b)) ∧
    (isInf a = true → isFinite b = true → fadd nan a b = a ∧ fadd nan b a = a) ∧
    (isInf a = true → isInf b = true → signOf a = signOf b → fadd nan a b = a) ∧
    (isInf a = true → isFinite b = true → fsub nan a b = a) ∧
    (isFinite a = true → isInf b = true →
      isInf (fsub nan a b) = true ∧ signOf (fsub nan a b) = !signOf b) ∧
    (isInf a = true → isInf b = true → signOf a ≠ signOf b → fsub nan a b = a) ∧
    (isInf a = true → isNaN b = false → isZero b = false →
      isInf (fmul nan a b) = true ∧ signOf (fmul nan a b) = xor (signOf a) (signOf b) ∧
      isInf (fmul nan b a) = true ∧ signOf (fmul nan b a) = xor (signOf b) (signOf a)) ∧
    (isInf a = true → isFinite b = true →
      isInf (fdiv nan a b) = true ∧ signOf (fdiv nan a b) = xor (signOf a) (signOf b)) ∧
    (isZero a = false → isFinite a = true → isZero b = true →
      isInf (fdiv nan a b) = true ∧ signOf (fdiv nan a b) = xor (signOf a) (signOf b)) ∧
    (isFinite a = true → isInf b = true →
      isZero (fdiv nan a b) = true ∧ signOf (fdiv nan a b) = xor (signOf a) (signOf b))

/-- R10: `fadd` and `fmul` round one exact value, which does not depend on the order of the operands, so they are
commutative, where a NaN results with the same drawn pattern (R13). Of `fmul` 30_encoding.md R75 says it: "`fmul` is
commutative". -/
def Obligations.AdditionAndMultiplicationCommute : Prop :=
  ∀ nan a b : Word, fadd nan a b = fadd nan b a ∧ fmul nan a b = fmul nan b a

/-- R12: `fabs` clears bit 31 and no other, and keeps a NaN a NaN; the comparisons are false on a NaN, order finite
values as their values are ordered (so both zeros are equal), hold every finite value between the infinities, with the
infinity on either side, and order the infinities by their signs, each equal to itself. -/
def Obligations.ComparisonsOrderValues : Prop :=
  (∀ a : Word,
    (fabs a).getLsbD 31 = false ∧ (∀ i, i < 31 → (fabs a).getLsbD i = a.getLsbD i) ∧ isNaN (fabs a) = isNaN a) ∧
  (∀ a b : Word, isNaN a = true ∨ isNaN b = true →
    fgt a b = false ∧ flt a b = false ∧ fge a b = false ∧ fle a b = false) ∧
  (∀ a b : Word, isFinite a = true → isFinite b = true →
    (fgt a b = true ↔ valueOf b < valueOf a) ∧ (flt a b = true ↔ valueOf a < valueOf b) ∧
    (fge a b = true ↔ valueOf b ≤ valueOf a) ∧ (fle a b = true ↔ valueOf a ≤ valueOf b)) ∧
  (∀ a b : Word, isFinite a = true → isInf b = true →
    fgt b a = !signOf b ∧ flt b a = signOf b ∧ fge b a = !signOf b ∧ fle b a = signOf b ∧
    fgt a b = signOf b ∧ flt a b = !signOf b ∧ fge a b = signOf b ∧ fle a b = !signOf b) ∧
  (∀ a b : Word, isInf a = true → isInf b = true →
    fgt a b = (!signOf a && signOf b) ∧ flt a b = (signOf a && !signOf b) ∧
    fge a b = (!signOf a || signOf b) ∧ fle a b = (signOf a || !signOf b))

/-- R14: `i2f` rounds the integer to nearest, ties to even, and is exact below `2^24`; the two example divisors. -/
def Obligations.IntegerConversionRoundsAndIsExactBelowTwoPow24 : Prop :=
  (∀ k : Nat, signOf (i2f k) = false ∧ RoundsTo (k * 2 ^ 149) 1 (magOf (i2f k))) ∧
  (∀ k : Nat, k < 2 ^ 24 → isFinite (i2f k) = true ∧ unitsOf (i2f k) = k * 2 ^ 149) ∧
  i2f 2000 = 0x44FA0000#32 ∧ i2f 100 = 0x42C80000#32

/-- The two worked values of R11: the power product has other bits with the other association, and the sum of a product
and `w` has other bits where the exact value of both, in units of `2^-298`, is rounded once, as a fused multiply-add
would round it. -/
def Obligations.RoundingOrderIsObservable : Prop :=
  ∀ nan : Word,
    fmul nan (fmul nan 0x3DCCCCCD#32 0x3E4CCCCD#32) 0x42C80000#32 = 0x40000001#32 ∧
    fmul nan 0x3DCCCCCD#32 (fmul nan 0x3E4CCCCD#32 0x42C80000#32) = 0x40000000#32 ∧
    fadd nan (fmul nan 0x3F7CBFB1#32 0x44E10000#32) 0xC4DE2000#32 = 0x3E0F6000#32 ∧
    ∀ v : Int, v = valueOf 0x3F7CBFB1#32 * valueOf 0x44E10000#32 + valueOf 0xC4DE2000#32 * 2 ^ 149 →
      roundTo (decide (v < 0)) v.natAbs (2 ^ 149) = 0x3E0F5220#32

/-! ### Steps -/

/-- A step runs the decoded operation: with a beat first in the schedule, the operation the beat decodes to; with PROC's
turn first, or nothing scheduled, the operation the `stage` register decodes to. The step only takes the turn from the
schedule before. That an empty schedule is PROC's turn is the model's choice (notes/assumptions/1.md). -/
def Obligations.StepRunsTheDecodedOperation : Prop :=
  ∀ (s : State) (i : Instr) (rest : List Turn),
    (∀ cmd, s.script = .beat cmd :: rest → decodeBeat cmd = .ok i → step s = exec i { s with script := rest }) ∧
    (s.script = .proc :: rest → decodeStage s.proc.stage = .ok i → step s = exec i { s with script := rest }) ∧
    (s.script = [] → decodeStage s.proc.stage = .ok i → step s = exec i s)

/-- R80 (and 60_exceptions.md R171, R172): a beat with a reserved operation code, and a SAMPLE beat with a malformed
channel, are consumed and change no state. -/
def Obligations.MalformedBeatsChangeNothing : Prop :=
  ∀ (s : State) (cmd : Beat) (rest : List Turn), s.script = .beat cmd :: rest →
    (beatOp cmd ≠ 0x01#8 → beatOp cmd ≠ 0x02#8 → step s = .next { s with script := rest }) ∧
    (beatOp cmd = 0x01#8 → 0x02 ≤ (beatCh cmd).toNat → step s = .next { s with script := rest })

/-- The steps of the host (10_state.md R34, 30_encoding.md R71, 70_reset_and_hazards.md R200, R201): the clock, a step
that presents nothing, and the reset, which leaves the configuration and the clock. That the supplies of free NaN
patterns go on over a reset is the model's (notes/assumptions/3.md). -/
def Obligations.HostStepsDoWhatTheySay : Prop :=
  ∀ (s : State) (rest : List Turn),
    (∀ now, s.script = .clock now :: rest → step s = .next { s with clk := now, script := rest }) ∧
    (s.script = .idle :: rest → step s = .next { s with script := rest }) ∧
    (s.script = .reset :: rest →
      step s = .next
        { cfg := s.cfg
          acq := { acc0 := ⟨0#32, 0#32⟩, acc1 := ⟨0#32, 0#32⟩, draws := s.acq.draws }
          shared := { hv0 := 0#32, hv1 := 0#32, ready := false, frstPend := false }
          proc :=
            { stage := 0x10#8, lv0 := 0#32, lv1 := 0#32, p := 0#32, y0 := 0#32, y1 := 0#32, y2 := 0#32
              d0 := ⟨0#32, 0#32⟩, d1 := ⟨0#32, 0#32⟩, d2 := ⟨0#32, 0#32⟩, buf := [], cur := 0#32, full := false
              last := 0#64, tnow := 0#64, ev := false, dir := false, cat := 0#8, bvalid := false, bval := 0#32
              scnt := 0#32, evt := [], sts := [], draws := s.proc.draws }
          clk := s.clk
          script := rest })

/-- 10_state.md R36: every item of the core's state after reset has the value the table gives it; every slot of the ring
buffer reads `+0.0`. The clock is any value, and nothing is scheduled (the schedule is the model's,
notes/assumptions/1.md). -/
def Obligations.ResetStateHasTheTabledValues : Prop :=
  (∀ c : Chan, (State.reset.acq.chan c).sum = 0#32 ∧ (State.reset.acq.chan c).n = 0#32 ∧
    State.reset.shared.pair c = 0#32) ∧
  State.reset.shared.ready = false ∧ State.reset.shared.frstPend = false ∧
  State.reset.proc.stage = 0x10#8 ∧ State.reset.proc.lv0 = 0#32 ∧ State.reset.proc.lv1 = 0#32 ∧
  State.reset.proc.p = 0#32 ∧
  (∀ k : Sec, State.reset.proc.output k = 0#32 ∧ (State.reset.proc.delay k).w1 = 0#32 ∧
    (State.reset.proc.delay k).w2 = 0#32) ∧
  (∀ i, State.reset.proc.buf.read i = 0#32) ∧ State.reset.proc.buf.wf = true ∧
  State.reset.proc.cur = 0#32 ∧ State.reset.proc.full = false ∧ State.reset.proc.last = 0#64 ∧
  State.reset.proc.tnow = 0#64 ∧ State.reset.proc.ev = false ∧ State.reset.proc.dir = false ∧
  State.reset.proc.cat = 0#8 ∧ State.reset.proc.bvalid = false ∧ State.reset.proc.bval = 0#32 ∧
  State.reset.proc.scnt = 0#32 ∧ State.reset.proc.evt = [] ∧ State.reset.proc.sts = [] ∧
  State.reset.script = []

/-- 60_exceptions.md R175, 00_scope.md R6: a core is built for a configuration exactly when every condition of R6 holds
(with `NDEV < 2^16`, R5), and then it is in its reset state. -/
def Obligations.IllFormedConfigurationBuildsNoCore : Prop :=
  ∀ (c : Cfg) (t : Time),
    State.powerUp c t =
      (if 1 ≤ c.adcRateHz ∧ 1 ≤ c.targetRateHz ∧ c.adcRateHz % c.targetRateHz = 0 ∧
          1 ≤ c.adcRateHz / c.targetRateHz ∧ c.adcRateHz / c.targetRateHz < 2 ^ 32 ∧
          1 ≤ c.ringSize ∧ c.ringSize < 2 ^ 32 ∧ (∀ e ∈ c.devTab, 3 ≤ e.cat.toNat) ∧ c.devTab.length < 2 ^ 16
       then some (State.initial c t) else none)

/-- PROC at a value of `stage` that is no stage code has no enabled step, and ACQ goes on accepting beats. That PROC's turn
then leaves the state as it is is the model's reading of 93_implementation_defined.md U7 "stuck"
(notes/assumptions/4.md). -/
def Obligations.IllegalStageLeavesProcStuck : Prop :=
  ∀ (s : State) (rest : List Turn), (s.proc.stage.toNat < 0x10 ∨ 0x1A < s.proc.stage.toNat) →
    (s.script = .proc :: rest → step s = .next { s with script := rest }) ∧
    (∀ cmd, s.script = .beat cmd :: rest → beatOp cmd = 0x02#8 →
      step s = .next { s with script := rest, shared := { s.shared with frstPend := true } })

/-! ### SAMPLE (40_decimator.md) -/

/-- R90, R91: SAMPLE on a malformed channel changes nothing; on a channel that has all its samples it has no defined
result; else it adds the raw value to the channel's sum, rounded once, and one to its count, and where both counts are
then `D` it emits the pair: both means by true division, both accumulators zero, `ready` set, whether or not the pair
before was consumed. The NaN patterns are ACQ's next draws; nothing else changes. -/
def Obligations.SampleFollowsItsRule : Prop :=
  ∀ (ch : Code8) (raw : Word) (ts : Time) (s : State), s.cfg.wf = true →
    (∀ c : Chan, (s.acq.chan c).n.toNat ≤ s.cfg.decim) →
    (ch ≠ 0x00#8 → ch ≠ 0x01#8 → exec (.sample ch raw ts) s = .next s) ∧
    ∀ c : Chan, ch = channelCode c →
      ((s.acq.chan c).n.toNat = s.cfg.decim → exec (.sample ch raw ts) s = .fault .lockstepViolation) ∧
      ((s.acq.chan c).n.toNat < s.cfg.decim →
        ¬ ((s.acq.chan c).n.toNat + 1 = s.cfg.decim ∧ (s.acq.chan c.other).n.toNat = s.cfg.decim) →
        ∃ t, exec (.sample ch raw ts) s = .next t ∧
          (t.acq.chan c).sum = fadd (s.acqNan 0) (s.acq.chan c).sum raw ∧
          (t.acq.chan c).n.toNat = (s.acq.chan c).n.toNat + 1 ∧
          t.acq.chan c.other = s.acq.chan c.other ∧ t.acq.draws = s.acq.draws + 3 ∧
          t = { s with acq := t.acq }) ∧
      ((s.acq.chan c).n.toNat + 1 = s.cfg.decim → (s.acq.chan c.other).n.toNat = s.cfg.decim →
        ∃ t a0 a1, exec (.sample ch raw ts) s = .next t ∧
          a0 = (match c with | .ch0 => fadd (s.acqNan 0) s.acq.acc0.sum raw | .ch1 => s.acq.acc0.sum) ∧
          a1 = (match c with | .ch0 => s.acq.acc1.sum | .ch1 => fadd (s.acqNan 0) s.acq.acc1.sum raw) ∧
          t = { s with
            acq := { acc0 := ⟨0#32, 0#32⟩, acc1 := ⟨0#32, 0#32⟩, draws := s.acq.draws + 3 }
            shared := { s.shared with
              hv0 := fdiv (s.acqNan 1) a0 (i2f s.cfg.decim)
              hv1 := fdiv (s.acqNan 2) a1 (i2f s.cfg.decim)
              ready := true } })

/-- R93: from the start of a period, `D` samples of each channel in any interleaving and with any timestamps emit one
pair: each channel's mean is the division by `i2f(D)` of the sum of its samples in arrival order from `+0.0`; both
accumulators are zero afterwards, `ready` is set, and nothing of PROC's has changed. -/
def Obligations.PeriodOfSamplesEmitsTheMeans : Prop :=
  ∀ (s : State) (xs : List (Chan × Word × Time)), s.cfg.wf = true →
    s.acq.acc0 = ⟨0#32, 0#32⟩ → s.acq.acc1 = ⟨0#32, 0#32⟩ →
    (samplesOf .ch0 xs).length = s.cfg.decim → (samplesOf .ch1 xs).length = s.cfg.decim →
    ∃ t m0 m1 nan0 nan1, feed s xs = .next t ∧
      SumOf 0#32 (samplesOf .ch0 xs) m0 ∧ SumOf 0#32 (samplesOf .ch1 xs) m1 ∧
      isNaN nan0 = true ∧ isNaN nan1 = true ∧
      t.shared = { hv0 := fdiv nan0 m0 (i2f s.cfg.decim), hv1 := fdiv nan1 m1 (i2f s.cfg.decim)
                   ready := true, frstPend := s.shared.frstPend } ∧
      t.acq.acc0 = ⟨0#32, 0#32⟩ ∧ t.acq.acc1 = ⟨0#32, 0#32⟩ ∧
      t.cfg = s.cfg ∧ t.proc = s.proc ∧ t.clk = s.clk ∧ t.script = s.script

/-! ### FRESET and WAIT -/

/-- 42_highpass_filter.md R109: the command step of FRESET sets `frst_pend` and changes nothing else, whatever fields the
beat holds. -/
def Obligations.FresetSetsOnlyThePendingBit : Prop :=
  ∀ s : State,
    exec .freset s = .next { s with shared := { s.shared with frstPend := true } } ∧
    ∀ (ch : Code8) (raw : Word) (ts : Time), decodeBeat (0x02#8 ++ (ch ++ (raw ++ ts))) = .ok .freset

/-- 46_sequencer_io.md R151: the filter-reset arm is served first, then the latch arm; with neither flag set WAIT leaves
the state as it is (60_exceptions.md R187). -/
def Obligations.WaitServesTheResetThenThePair : Prop :=
  decodeStage 0x10#8 = .ok .wait ∧
  ∀ s : State,
    (s.shared.frstPend = true →
      exec .wait s = .next { s with
        shared := { s.shared with frstPend := false }
        proc := { s.proc with d0 := ⟨0#32, 0#32⟩, d1 := ⟨0#32, 0#32⟩, d2 := ⟨0#32, 0#32⟩, stage := 0x10#8 } }) ∧
    (s.shared.frstPend = false → s.shared.ready = true →
      exec .wait s = .next { s with
        shared := { s.shared with ready := false }
        proc := { s.proc with lv0 := s.shared.hv0, lv1 := s.shared.hv1, stage := 0x11#8 } }) ∧
    (s.shared.frstPend = false → s.shared.ready = false → exec .wait s = .next s)

/-- 46_sequencer_io.md R150: PROC is blocked exactly when `stage = 0x10`, `ready = 0` and `frst_pend = 0`: then its
operation leaves the state as it is; in every other state it has a step that changes the state. -/
def Obligations.ProcIsBlockedExactlyInAnIdleWait : Prop :=
  ∀ s : State, stageOk s.proc.stage = true → s.proc.cur.toNat < s.cfg.ringSize →
    ∃ i t, decodeStage s.proc.stage = .ok i ∧ exec i s = .next t ∧
      (t = s ↔ s.proc.stage = 0x10#8 ∧ s.shared.ready = false ∧ s.shared.frstPend = false)

/-! ### PWR and the filter -/

/-- 41_power_estimator.md R100: the product left to right, then rectified; the sign bit of `p` is 0; nothing but `p` and
the stage changes (and PROC's count of drawn NaN patterns). -/
def Obligations.PowerIsTheRectifiedProduct : Prop :=
  decodeStage 0x11#8 = .ok .pwr ∧
  ∀ s : State, ∃ t u : Word,
    t = fmul (s.procNan 0) s.proc.lv0 s.proc.lv1 ∧ u = fmul (s.procNan 1) t s.cfg.scale ∧
    exec .pwr s = .next { s with
      proc := { s.proc with p := fabs u, stage := 0x12#8, draws := s.proc.draws + 2 } } ∧
    signOf (fabs u) = false

/-- 42_highpass_filter.md R105 to R108: each section of the cascade computes its output and its new delay line by the
nine roundings of R105, from the input its rule names, and changes nothing else but the stage (and PROC's count of drawn
NaN patterns). -/
def Obligations.SectionsFollowTheBiquadEquations : Prop :=
  decodeStage 0x12#8 = .ok .bq0 ∧ decodeStage 0x13#8 = .ok .bq1 ∧ decodeStage 0x14#8 = .ok .bq2 ∧
  ∀ s : State,
    (∃ y d, BiquadRule s.procNan s.cfg.hp0 s.proc.d0 s.proc.p y d ∧
      exec .bq0 s = .next { s with
        proc := { s.proc with y0 := y, d0 := d, stage := 0x13#8, draws := s.proc.draws + 9 } }) ∧
    (∃ y d, BiquadRule s.procNan s.cfg.hp1 s.proc.d1 s.proc.y0 y d ∧
      exec .bq1 s = .next { s with
        proc := { s.proc with y1 := y, d1 := d, stage := 0x14#8, draws := s.proc.draws + 9 } }) ∧
    (∃ y d, BiquadRule s.procNan s.cfg.hp2 s.proc.d2 s.proc.y1 y d ∧
      exec .bq2 s = .next { s with
        proc := { s.proc with y2 := y, d2 := d, stage := 0x15#8, draws := s.proc.draws + 9 } })

/-- 42_highpass_filter.md R110: the three stages from BQ0 on, PROC alone taking turns, apply the three sections in series,
once each, each to the output of the one before, the first to `p`; whatever NaN patterns the additions and products draw.
Nothing else of the state changes but the stage (and PROC's count of drawn NaN patterns). -/
def Obligations.CascadeAppliesTheSectionsInSeries : Prop :=
  ∀ s : State, s.script = [] → s.proc.stage = 0x12#8 →
    ∃ (t : State) (nan0 nan1 nan2 : Nat → Word), core.run 3 s = .next t ∧
      (∀ i, isNaN (nan0 i) = true ∧ isNaN (nan1 i) = true ∧ isNaN (nan2 i) = true) ∧
      BiquadRule nan0 s.cfg.hp0 s.proc.d0 s.proc.p t.proc.y0 t.proc.d0 ∧
      BiquadRule nan1 s.cfg.hp1 s.proc.d1 t.proc.y0 t.proc.y1 t.proc.d1 ∧
      BiquadRule nan2 s.cfg.hp2 s.proc.d2 t.proc.y1 t.proc.y2 t.proc.d2 ∧
      t = { s with proc := { s.proc with
        y0 := t.proc.y0, y1 := t.proc.y1, y2 := t.proc.y2, d0 := t.proc.d0, d1 := t.proc.d1, d2 := t.proc.d2
        stage := 0x15#8, draws := t.proc.draws } }

/-- 60_exceptions.md R176: a NaN in the first word of a section's delay line makes the section's output a NaN and both
words of the line NaNs; a NaN in the second word makes the first word a NaN; so does a NaN input. -/
def Obligations.NaNStaysInADelayLine : Prop :=
  ∀ (nan : Nat → Word) (c : Coefs) (w : Delay) (x y : Word) (w' : Delay), (∀ i, isNaN (nan i) = true) →
    BiquadRule nan c w x y w' →
    (isNaN w.w1 = true ∨ isNaN x = true → isNaN y = true ∧ isNaN w'.w1 = true ∧ isNaN w'.w2 = true) ∧
    (isNaN w.w2 = true → isNaN w'.w1 = true)

/-- 10_state.md R27: a section's delay line changes in no step but that section's own stage, the filter-reset arm of WAIT
and a reset. -/
def Obligations.DelayLinesAreWrittenOnlyByTheirSection : Prop :=
  ∀ (s t : State) (k : Sec), step s = .next t → t.proc.delay k ≠ s.proc.delay k →
    s.nextTurn = .reset ∨
    (s.nextTurn = .proc ∧
      (s.proc.stage.toNat = 0x12 + k.index ∨ (s.proc.stage = 0x10#8 ∧ s.shared.frstPend = true)))

/-! ### The baseline (43_baseline.md) -/

/-- R120: BPUSH stores `p` at the cursor, and every other slot reads as before; the cursor goes on, to 0 after slot N-1;
the push that writes slot N-1 sets `full`, and none clears it; nothing else changes but the stage. -/
def Obligations.PushStoresAtTheCursor : Prop :=
  decodeStage 0x15#8 = .ok .bpush ∧
  ∀ s : State, s.cfg.wf = true → s.proc.buf.wf = true → s.proc.cur.toNat < s.cfg.ringSize →
    ∃ t, exec .bpush s = .next t ∧
      t.proc.buf.read s.proc.cur.toNat = s.proc.p ∧
      (∀ a, a ≠ s.proc.cur.toNat → t.proc.buf.read a = s.proc.buf.read a) ∧ t.proc.buf.wf = true ∧
      t.proc.cur.toNat = (if s.proc.cur.toNat = s.cfg.ringSize - 1 then 0 else s.proc.cur.toNat + 1) ∧
      t.proc.full = (s.proc.full || decide (s.proc.cur.toNat = s.cfg.ringSize - 1)) ∧
      t = { s with proc := { s.proc with
        buf := t.proc.buf, cur := t.proc.cur, full := t.proc.full, stage := 0x16#8 } }

/-- BPUSH with a cursor that is no index of BUF stops the machine. The spec says that no rule produces such an index
(20_memory.md R56) and gives the push no effect there: that the model stops is its own choice (notes/assumptions/5.md). -/
def Obligations.PushOutsideTheRingStops : Prop :=
  ∀ s : State, s.cfg.ringSize ≤ s.proc.cur.toNat → exec .bpush s = .fault .bufIndexOutside

/-- R121: BASE answers the mean of all slots, summed in index order from `+0.0` with one rounded addition a slot and
divided by `i2f(N)`, once the buffer has filled, and "unavailable" with `+0.0` before; nothing else changes but the stage
(and PROC's count of drawn NaN patterns). -/
def Obligations.BaselineIsTheMeanOfAllSlots : Prop :=
  decodeStage 0x19#8 = .ok .base ∧
  ∀ s : State, ∃ bval : Word,
    bval = (if s.proc.full = true then
        fdiv (s.procNan s.cfg.ringSize)
          ((List.range s.cfg.ringSize).foldl (fun acc i => fadd (s.procNan i) acc (s.proc.buf.read i)) 0#32)
          (i2f s.cfg.ringSize)
      else 0#32) ∧
    exec .base s = .next { s with proc := { s.proc with
      bvalid := s.proc.full, bval := bval, stage := 0x1A#8, draws := s.proc.draws + (s.cfg.ringSize + 1) } }

/-- R123: the ring buffer holds the last N PowerSamples pushed since reset, each in its slot: it does at reset with no
push made; a step that pushes adds one to the history; every other step but a reset leaves it; and from the N-th push on
the baseline is available. -/
def Obligations.RingHoldsTheLastSamples : Prop :=
  (∀ (c : Cfg) (t : Time), c.wf = true → RingHolds (State.initial c t) []) ∧
  (∀ (s t : State) (hist : List Word), s.cfg.wf = true → s.proc.buf.wf = true → RingHolds s hist →
    step s = .next t →
    (s.nextTurn = .reset → RingHolds t []) ∧
    (s.nextTurn = .proc → s.proc.stage = 0x15#8 → RingHolds t (hist ++ [s.proc.p])) ∧
    (s.nextTurn ≠ .reset → (s.nextTurn = .proc → s.proc.stage ≠ 0x15#8) → RingHolds t hist)) ∧
  (∀ (s : State) (hist : List Word), RingHolds s hist → s.cfg.ringSize ≤ hist.length →
    ∃ t, exec .base s = .next t ∧ t.proc.bvalid = true ∧
      t.proc.bval = ringMean s.procNan s.proc.buf s.cfg.ringSize)

/-! ### The event detector (44_event_detector.md) -/

/-- R130, R131: the clock is sampled; inside the debounce window, or with a magnitude that fails the strict test, there is
no event and the next stage is BASE; an accepted ON event goes to CLASSIFY and leaves `cat`; an accepted OFF event sets
`cat` to `0x02` and goes to EMIT. Nothing else changes. -/
def Obligations.DetectFollowsItsRule : Prop :=
  decodeStage 0x16#8 = .ok .detect ∧
  ∀ s : State,
    ((s.clk - s.proc.last).toNat < s.cfg.debounceMs.toNat ∨ fgt (fabs s.proc.y2) s.cfg.eventThreshold = false →
      exec .detect s = .next { s with proc := { s.proc with tnow := s.clk, ev := false, stage := 0x19#8 } }) ∧
    (s.cfg.debounceMs.toNat ≤ (s.clk - s.proc.last).toNat → fgt (fabs s.proc.y2) s.cfg.eventThreshold = true →
      (fgt s.proc.y2 0#32 = true →
        exec .detect s = .next { s with proc := { s.proc with
          tnow := s.clk, ev := true, last := s.clk, dir := true, stage := 0x17#8 } }) ∧
      (fgt s.proc.y2 0#32 = false →
        exec .detect s = .next { s with proc := { s.proc with
          tnow := s.clk, ev := true, last := s.clk, dir := false, cat := 0x02#8, stage := 0x18#8 } }))

/-- R133: of two ticks that both pass the magnitude test, the first accepted and none accepted between them, the second
is accepted exactly when its time lies at least the debounce window after the first one's. -/
def Obligations.DebounceSeparatesAcceptedEvents : Prop :=
  ∀ s1 t1 s2 t2 : State, exec .detect s1 = .next t1 → t1.proc.ev = true →
    s2.cfg = s1.cfg → s2.proc.last = t1.proc.last → s1.clk.toNat ≤ s2.clk.toNat →
    fgt (fabs s2.proc.y2) s2.cfg.eventThreshold = true → exec .detect s2 = .next t2 →
    (t2.proc.ev = true ↔ s2.cfg.debounceMs.toNat ≤ s2.clk.toNat - s1.clk.toNat)

/-- 10_state.md R29, R28: `last` changes only in a DETECT that accepts an event, to the time it sampled, and in a reset;
`full` goes from 1 to 0 only in a reset. -/
def Obligations.TimestampAndFullFlagChangeOnlyWhereTheyMay : Prop :=
  ∀ s t : State, step s = .next t → s.nextTurn ≠ .reset →
    (t.proc.last ≠ s.proc.last →
      s.nextTurn = .proc ∧ s.proc.stage = 0x16#8 ∧ t.proc.ev = true ∧ t.proc.last = s.clk) ∧
    (s.proc.full = true → t.proc.full = true)

/-! ### The classifier (45_classifier.md) -/

/-- R140, R142: the first entry in declared order whose inclusive range contains the magnitude gives the category; with no
such entry it is `Other` above the floor and `Unknown` otherwise; a NaN gives `Unknown`. -/
def Obligations.ClassifyReturnsTheFirstMatch : Prop :=
  ∀ (c : Cfg) (x : Word),
    (∀ (i : Nat) (e : DevRange), c.devTab[i]? = some e →
      fle e.min (fabs x) = true → fle (fabs x) e.max = true →
      (∀ (j : Nat) (e' : DevRange), j < i → c.devTab[j]? = some e' →
        ¬ (fle e'.min (fabs x) = true ∧ fle (fabs x) e'.max = true)) →
      classifyValue c x = e.cat) ∧
    ((∀ e ∈ c.devTab, ¬ (fle e.min (fabs x) = true ∧ fle (fabs x) e.max = true)) →
      classifyValue c x = if fgt (fabs x) c.otherFloor = true then 0x01#8 else 0x00#8) ∧
    (isNaN x = true → classifyValue c x = 0x00#8)

/-- R141: CLASSIFY writes the category of the filtered value, and changes nothing else but the stage. -/
def Obligations.ClassifyStageWritesTheCategory : Prop :=
  decodeStage 0x17#8 = .ok .classify ∧
  ∀ s : State, exec .classify s =
    .next { s with proc := { s.proc with cat := classifyValue s.cfg s.proc.y2, stage := 0x18#8 } }

/-! ### The output ports (46_sequencer_io.md) -/

/-- R152, 30_encoding.md R78: EMIT appends the record of this tick's registers to `EVT`, which is what the event port
shows for this one step, and changes nothing else but the stage. -/
def Obligations.EmitAppendsTheEventRecord : Prop :=
  decodeStage 0x18#8 = .ok .emit ∧
  ∀ s : State, ∃ t, exec .emit s = .next t ∧
    t = { s with proc := { s.proc with
      evt := s.proc.evt ++
        [{ ts := s.proc.tnow, delta := s.proc.y2, dir := s.proc.dir, cat := s.proc.cat, power := s.proc.p }]
      stage := 0x19#8 } } ∧
    eventPort s t =
      some (s.proc.tnow ++ (s.proc.y2 ++ (BitVec.ofBool s.proc.dir ++ (s.proc.cat ++ s.proc.p)))) ∧
    statusPort s t = none

/-- R153, 30_encoding.md R79: with the interval 0 STATUS only ends the tick; on the `STATUS_INTERVAL`-th tick it appends
the record and starts the count again; else it counts one tick. Nothing else changes but the stage. -/
def Obligations.StatusCountsTicksAndReports : Prop :=
  decodeStage 0x1A#8 = .ok .status ∧
  ∀ s : State, s.proc.scnt.toNat < max s.cfg.statusInterval.toNat 1 →
    (s.cfg.statusInterval = 0#32 → exec .status s = .next { s with proc := { s.proc with stage := 0x10#8 } }) ∧
    (s.proc.scnt.toNat + 1 = s.cfg.statusInterval.toNat →
      ∃ t, exec .status s = .next t ∧
        t = { s with proc := { s.proc with
          sts := s.proc.sts ++
            [{ power := s.proc.p, bvalid := s.proc.bvalid, base := s.proc.bval, filt := s.proc.y2 }]
          scnt := 0#32
          stage := 0x10#8 } } ∧
        statusPort s t =
          some (s.proc.p ++ (BitVec.ofBool s.proc.bvalid ++ (s.proc.bval ++ s.proc.y2)))) ∧
    (s.cfg.statusInterval ≠ 0#32 → s.proc.scnt.toNat + 1 ≠ s.cfg.statusInterval.toNat →
      ∃ t, exec .status s = .next t ∧ t.proc.scnt.toNat = s.proc.scnt.toNat + 1 ∧
        t = { s with proc := { s.proc with scnt := t.proc.scnt, stage := 0x10#8 } })

/-- 10_state.md R35, 46_sequencer_io.md R157: but for a reset, each trace only grows, by at most one record a step: `EVT`
in EMIT alone, `STS` in STATUS alone. -/
def Obligations.TracesGrowByOneRecordAStep : Prop :=
  ∀ s t : State, step s = .next t → s.nextTurn ≠ .reset →
    (t.proc.evt = s.proc.evt ∨
      (s.nextTurn = .proc ∧ s.proc.stage = 0x18#8 ∧ ∃ r, t.proc.evt = s.proc.evt ++ [r])) ∧
    (t.proc.sts = s.proc.sts ∨
      (s.nextTurn = .proc ∧ s.proc.stage = 0x1A#8 ∧ ∃ r, t.proc.sts = s.proc.sts ++ [r]))

/-! ### The whole machine -/

/-- The invariants of 10_state.md R37 hold in the state after reset, and at power-up with any well-formed
configuration. -/
def Obligations.CoreInvariantHoldsAtReset : Prop :=
  CoreInv State.reset ∧ ∀ (c : Cfg) (t : Time), c.wf = true → CoreInv (State.initial c t)

/-- 10_state.md R37: every step keeps them. -/
def Obligations.CoreInvariantIsKept : Prop :=
  ∀ s t : State, CoreInv s → step s = .next t → CoreInv t

/-- From a state that meets the invariants of 10_state.md R37 a step stops in one way only: a SAMPLE for a channel that
has all its samples of the period (60_exceptions.md R173, R182). -/
def Obligations.OnlyLostLockstepStopsTheMachine : Prop :=
  ∀ s : State, CoreInv s →
    (∃ t, step s = .next t) ∨
    (step s = .fault .lockstepViolation ∧
      ∃ cmd c, s.nextTurn = .beat cmd ∧ beatOp cmd = 0x01#8 ∧ beatCh cmd = channelCode c ∧
        (s.acq.chan c).n.toNat = s.cfg.decim)

/-- The invariants of the event trace hold in the state after reset, and at power-up with any well-formed
configuration. -/
def Obligations.EventInvariantHoldsAtReset : Prop :=
  EventInv State.reset ∧ ∀ (c : Cfg) (t : Time), c.wf = true → EventInv (State.initial c t)

/-- Every step keeps the invariants of the event trace, so in every run consecutive EventRecords lie at least the debounce
window apart, and exactly the OFF records carry the category `0x02` (44_event_detector.md R130, R131, R133; 30_encoding.md
R77). The form of the invariant on `last` is the model's reading of 10_state.md R37 (notes/assumptions/8.md). -/
def Obligations.EventInvariantIsKept : Prop :=
  ∀ s t : State, EventInv s → step s = .next t → EventInv t

/-- 10_state.md R33, 20_memory.md R64: no step changes the configuration, and none but the host's clock step changes the
clock (10_state.md R34). -/
def Obligations.ConfigurationNeverChanges : Prop :=
  ∀ s t : State, step s = .next t →
    t.cfg = s.cfg ∧ ((∀ now, s.nextTurn ≠ .clock now) → t.clk = s.clk)

/-- 10_state.md R21: an operation of ACQ neither writes nor reads PROC's registers or the clock, and an operation of PROC
neither writes nor reads ACQ's. -/
def Obligations.AgentsKeepToTheirOwnState : Prop :=
  ∀ (i : Instr) (s t : State), exec i s = .next t →
    (i.format = .h → t.proc = s.proc ∧
      ∀ (q : Proc) (now : Time),
        exec i { s with proc := q, clk := now } = .next { t with proc := q, clk := now }) ∧
    (i.format = .s → t.acq = s.acq ∧ ∀ a : Acq, exec i { s with acq := a } = .next { t with acq := a })

/-- 46_sequencer_io.md R154: the stages of a tick from PWR to STATUS commute with every command of ACQ. -/
def Obligations.StagesCommuteWithCommands : Prop :=
  ∀ (a i : Instr) (s s1 s2 : State), a.format = .h → i.format = .s → i ≠ .wait →
    exec a s = .next s1 → exec i s = .next s2 →
    ∃ t, exec i s1 = .next t ∧ exec a s2 = .next t

/-- 20_memory.md R60, R63: but for a reset, `ready` is raised only by the pair emission of a SAMPLE, and cleared only by
WAIT's latch arm, which takes the pair as the last emission left it. -/
def Obligations.ReadyIsRaisedByEmissionAndClearedByLatch : Prop :=
  ∀ s t : State, step s = .next t → s.nextTurn ≠ .reset →
    (s.shared.ready = false → t.shared.ready = true →
      ∃ cmd, s.nextTurn = .beat cmd ∧ beatOp cmd = 0x01#8 ∧
        t.acq.acc0 = ⟨0#32, 0#32⟩ ∧ t.acq.acc1 = ⟨0#32, 0#32⟩) ∧
    (s.shared.ready = true → t.shared.ready = false →
      s.nextTurn = .proc ∧ s.proc.stage = 0x10#8 ∧ s.shared.frstPend = false ∧
      t.proc.lv0 = s.shared.hv0 ∧ t.proc.lv1 = s.shared.hv1 ∧ t.shared.hv0 = s.shared.hv0 ∧
      t.shared.hv1 = s.shared.hv1)

/-- 00_scope.md R13: no control flow depends on the choice of a NaN pattern: from two states that agree up to NaN
patterns, with any supplies of free values, steps answer next states that agree up to NaN patterns, or the same stop. The
ring buffers are in canonical form, which every step keeps (`Obligations.CoreInvariantIsKept`). -/
def Obligations.NaNPatternsNeverSteerControl : Prop :=
  ∀ s t : State, s.proc.buf.wf = true → t.proc.buf.wf = true → SameUpToNaN s t → SameOutcome (step s) (step t)

/-- 46_sequencer_io.md R150: with a pair waiting, no filter reset asked for and PROC alone taking turns, one whole tick
runs from WAIT back to WAIT, in nine steps with no event, ten with an OFF event and eleven with an ON event; it consumes
the pair, appends one EventRecord where there was an event and none otherwise, and leaves ACQ's registers. -/
def Obligations.WholeTickReturnsToWait : Prop :=
  ∀ s : State, CoreInv s → s.script = [] → s.proc.stage = 0x10#8 → s.shared.ready = true →
    s.shared.frstPend = false →
    ∃ t, core.run (9 + if t.proc.ev = true then (if t.proc.dir = true then 2 else 1) else 0) s = .next t ∧
      t.proc.stage = 0x10#8 ∧ t.shared = { s.shared with ready := false } ∧ t.acq = s.acq ∧
      t.proc.lv0 = s.shared.hv0 ∧ t.proc.lv1 = s.shared.hv1 ∧ t.proc.tnow = s.clk ∧
      t.proc.buf = s.proc.buf.write s.proc.cur.toNat t.proc.p ∧
      t.proc.evt = s.proc.evt ++ (if t.proc.ev = true then [eventOf t.proc] else []) ∧
      t.proc.last = (if t.proc.ev = true then s.clk else s.proc.last)
end

