-- ==== Sys2Proof/Laws/Binary32.lean ====
section
/-!
SUPPORT. The bits of a pattern under the binary32 primitives, and the order of the magnitudes.
-/

namespace Sys2Proof.Machine

theorem magOf_lt (a : Word) : magOf a < 2 ^ 31 := Nat.mod_lt _ (by decide)

theorem signOf_eq (a : Word) : signOf a = decide (2 ^ 31 ≤ a.toNat) := by
  simp [signOf, BitVec.msb_eq_decide]

theorem toNat_eq_sign_mag (a : Word) : a.toNat = (if signOf a then 2 ^ 31 else 0) + magOf a := by
  have := a.isLt
  rw [signOf_eq]
  unfold magOf
  by_cases h : 2 ^ 31 ≤ a.toNat
  · rw [decide_eq_true h, if_pos rfl]
    omega
  · rw [decide_eq_false h, if_neg Bool.false_ne_true]
    omega

/-- A pattern is its sign and its magnitude pattern. -/
theorem eq_of_sign_mag (a b : Word) (hs : signOf a = signOf b) (hm : magOf a = magOf b) : a = b := by
  apply BitVec.eq_of_toNat_eq
  rw [toNat_eq_sign_mag a, toNat_eq_sign_mag b, hs, hm]

theorem toNat_packFloat (s : Bool) (m : Nat) (h : m < 2 ^ 31) :
    (packFloat s m).toNat = (if s then 2 ^ 31 else 0) + m := by
  unfold packFloat
  rw [BitVec.toNat_ofNat]
  apply Nat.mod_eq_of_lt
  split <;> omega

theorem magOf_packFloat (s : Bool) (m : Nat) (h : m < 2 ^ 31) : magOf (packFloat s m) = m := by
  unfold magOf
  rw [toNat_packFloat s m h]
  split <;> omega

theorem signOf_packFloat (s : Bool) (m : Nat) (h : m < 2 ^ 31) : signOf (packFloat s m) = s := by
  rw [signOf_eq, toNat_packFloat s m h]
  cases s
  · simp
    omega
  · simp

theorem roundMag_le (num den : Nat) : roundMag num den ≤ infMag := Nat.min_le_right _ _

theorem magOf_roundTo (s : Bool) (num den : Nat) : magOf (roundTo s num den) = roundMag num den :=
  magOf_packFloat s _ (Nat.lt_of_le_of_lt (roundMag_le num den) (by decide))

theorem signOf_roundTo (s : Bool) (num den : Nat) : signOf (roundTo s num den) = s :=
  signOf_packFloat s _ (Nat.lt_of_le_of_lt (roundMag_le num den) (by decide))

theorem isNaN_roundTo (s : Bool) (num den : Nat) : isNaN (roundTo s num den) = false := by
  simp only [isNaN, magOf_roundTo, decide_eq_false_iff_not]
  exact Nat.not_lt.mpr (roundMag_le num den)

theorem isNaN_infinity (s : Bool) : isNaN (infinity s) = false := by cases s <;> decide

theorem isNaN_zeroOf (s : Bool) : isNaN (zeroOf s) = false := by cases s <;> decide

theorem toNat_fabs (a : Word) : (fabs a).toNat = magOf a := by
  unfold fabs magOf
  rw [BitVec.toNat_and]
  exact Nat.and_two_pow_sub_one_eq_mod a.toNat 31

theorem magOf_fabs (a : Word) : magOf (fabs a) = magOf a := by
  conv_lhs => unfold magOf
  rw [toNat_fabs]
  exact Nat.mod_eq_of_lt (magOf_lt a)

theorem signOf_fabs (a : Word) : signOf (fabs a) = false := by
  rw [signOf_eq, toNat_fabs]
  have := magOf_lt a
  simp
  omega

theorem isNaN_fabs (a : Word) : isNaN (fabs a) = isNaN a := by simp only [isNaN, magOf_fabs]

theorem signOf_fneg (a : Word) : signOf (fneg a) = !signOf a := by
  simp only [signOf, fneg, BitVec.msb_xor]
  have : (0x80000000#32).msb = true := by decide
  rw [this, Bool.xor_true]

theorem magOf_fneg (a : Word) : magOf (fneg a) = magOf a := by
  have h : ∀ i, i < 31 → (fneg a).getLsbD i = a.getLsbD i := by
    intro i hi
    simp only [fneg, BitVec.getLsbD_xor]
    have : (0x80000000#32).getLsbD i = false := by interval_cases i <;> decide
    rw [this, Bool.xor_false]
  unfold magOf
  apply Nat.eq_of_testBit_eq
  intro i
  simp only [Nat.testBit_mod_two_pow]
  by_cases hi : i < 31
  · simpa [hi, BitVec.getLsbD] using h i hi
  · simp [hi]

theorem isNaN_fneg (a : Word) : isNaN (fneg a) = isNaN a := by simp only [isNaN, magOf_fneg]

/-- The value of a magnitude pattern grows with the pattern. -/
theorem magUnits_lt_succ (m : Nat) : magUnits m < magUnits (m + 1) := by
  have hlt : m % 2 ^ 23 < 2 ^ 23 := Nat.mod_lt _ (by decide)
  unfold magUnits
  by_cases hc : m % 2 ^ 23 + 1 = 2 ^ 23
  · have hd : (m + 1) / 2 ^ 23 = m / 2 ^ 23 + 1 := by omega
    have hm : (m + 1) % 2 ^ 23 = 0 := by omega
    rw [hd, hm, if_neg (Nat.succ_ne_zero _), Nat.add_sub_cancel]
    by_cases hz : m / 2 ^ 23 = 0
    · rw [if_pos hz, hz]
      omega
    · obtain ⟨e, he⟩ := Nat.exists_eq_succ_of_ne_zero hz
      rw [he, if_neg (Nat.succ_ne_zero _), Nat.succ_eq_add_one, Nat.add_sub_cancel, Nat.pow_succ 2 e]
      have hp : 0 < 2 ^ e := Nat.two_pow_pos e
      generalize 2 ^ e = q at hp ⊢
      have hx : m % 2 ^ 23 = 2 ^ 23 - 1 := by omega
      rw [hx]
      omega
  · have hd : (m + 1) / 2 ^ 23 = m / 2 ^ 23 := by omega
    have hm : (m + 1) % 2 ^ 23 = m % 2 ^ 23 + 1 := by omega
    rw [hd, hm]
    by_cases hz : m / 2 ^ 23 = 0
    · rw [if_pos hz, if_pos hz]
      exact Nat.lt_succ_self m
    · rw [if_neg hz, if_neg hz]
      exact Nat.mul_lt_mul_of_pos_right (by omega) (Nat.two_pow_pos _)

theorem magUnits_strictMono : StrictMono magUnits := strictMono_nat_of_lt_succ magUnits_lt_succ

theorem toNat_append_mod (v w : Nat) (x : BitVec v) (y : BitVec w) : (x ++ y).toNat % 2 ^ w = y.toNat := by
  rw [BitVec.toNat_append, Nat.shiftLeft_eq, Nat.mul_comm, ← Nat.two_pow_add_eq_or_of_lt y.isLt, Nat.mul_add_mod,
    Nat.mod_eq_of_lt y.isLt]

theorem toNat_append_mul (v w : Nat) (x : BitVec v) (y : BitVec w) :
    (x ++ y).toNat = 2 ^ w * x.toNat + y.toNat := by
  rw [BitVec.toNat_append, Nat.shiftLeft_eq, Nat.mul_comm, ← Nat.two_pow_add_eq_or_of_lt y.isLt]

theorem isNaN_of_fields (s : Bool) (f : Nat) (h : f < 8388607) :
    isNaN (BitVec.ofBool s ++ (255#8 ++ BitVec.ofNat 23 (f + 1))) = true := by
  have h1 := toNat_append_mod 1 31 (BitVec.ofBool s) (255#8 ++ BitVec.ofNat 23 (f + 1))
  have h2 := toNat_append_mul 8 23 255#8 (BitVec.ofNat 23 (f + 1))
  have h3 : (BitVec.ofNat 23 (f + 1)).toNat = f + 1 := by
    rw [BitVec.toNat_ofNat]
    exact Nat.mod_eq_of_lt (by omega)
  rw [isNaN, decide_eq_true_eq]
  change infMag < _ % 2 ^ 31
  rw [h1, h2, h3]
  change 0x7F800000 < 2 ^ 23 * 255 + (f + 1)
  omega

/-- Every draw is a NaN pattern (00_scope.md R13). -/
theorem isNaN_freeNan (a : Agent) (k : Nat) : isNaN (Config.freeNan a k) = true :=
  isNaN_of_fields _ _ (Config.nanFraction a k).isLt

theorem isNaN_acqNan (s : State) (i : Nat) : isNaN (s.acqNan i) = true := isNaN_freeNan _ _

theorem isNaN_procNan (s : State) (i : Nat) : isNaN (s.procNan i) = true := isNaN_freeNan _ _

end Sys2Proof.Machine
end

