-- ==== Sys2Proof/Laws/Memory.lean ====
section
/-!
SUPPORT. The memory space BUF: reading after writing, and the canonical form that every write keeps.
-/

namespace Sys2Proof.Machine

@[simp] theorem Memory_read_nil (i : Nat) : Memory.read [] i = Memory.blank := rfl

theorem Memory_read_below (m : Memory) (lo i : Nat) (h : Memory.wfFrom lo m = true) (hi : i < lo) :
    m.read i = Memory.blank := by
  induction m generalizing lo with
  | nil => rfl
  | cons e rest ih =>
    obtain ⟨j, w⟩ := e
    simp only [Memory.wfFrom, Bool.and_eq_true, decide_eq_true_eq] at h
    have hne : i ≠ j := by omega
    simp only [Memory.read, if_neg hne]
    exact ih (j + 1) h.2 (by omega)

/-- Reading the index just written gives the value written; any other index reads as before. -/
theorem Memory_read_write (m : Memory) (lo i k : Nat) (v : Word) (h : Memory.wfFrom lo m = true) :
    (m.write i v).read k = if k = i then v else m.read k := by
  induction m generalizing lo with
  | nil =>
    by_cases hv : v = Memory.blank
    · simp [Memory.write, hv]
    · simp [Memory.write, hv, Memory.read]
  | cons e rest ih =>
    obtain ⟨j, w⟩ := e
    simp only [Memory.wfFrom, Bool.and_eq_true, decide_eq_true_eq] at h
    obtain ⟨⟨hlo, hw⟩, hrest⟩ := h
    have hbelow : ∀ x, x < j + 1 → Memory.read rest x = Memory.blank :=
      fun x hx => Memory_read_below rest (j + 1) x hrest hx
    simp only [Memory.write]
    split
    next hij =>
      split
      next hv =>
        by_cases hk : k = i
        · subst hk
          simp [Memory.read, show k ≠ j by omega, hbelow k (by omega), hv]
        · simp [hk]
      next hv => by_cases hk : k = i <;> simp [Memory.read, hk]
    next hij =>
      split
      next hji =>
        subst hji
        split
        next hv =>
          by_cases hk : k = i
          · subst hk
            simp [hbelow k (by omega), hv]
          · simp [Memory.read, hk]
        next hv => by_cases hk : k = i <;> simp [Memory.read, hk]
      next hji =>
        by_cases hk : k = j
        · subst hk
          simp [Memory.read, show k ≠ i by omega]
        · simp [Memory.read, hk, ih (j + 1) hrest]

/-- A write keeps the canonical form. -/
theorem Memory_wfFrom_write (m : Memory) (lo i : Nat) (v : Word) (h : Memory.wfFrom lo m = true) (hi : lo ≤ i) :
    Memory.wfFrom lo (m.write i v) = true := by
  induction m generalizing lo with
  | nil =>
    by_cases hv : v = Memory.blank
    · simp [Memory.write, hv, Memory.wfFrom]
    · simp [Memory.write, hv, Memory.wfFrom, hi]
  | cons e rest ih =>
    obtain ⟨j, w⟩ := e
    have h' := h
    simp only [Memory.wfFrom, Bool.and_eq_true, decide_eq_true_eq] at h
    obtain ⟨⟨hlo, hw⟩, hrest⟩ := h
    have weaken : ∀ a b (l : Memory), a ≤ b → Memory.wfFrom b l = true → Memory.wfFrom a l = true := by
      intro a b l hab hl
      cases l with
      | nil => rfl
      | cons e r =>
        obtain ⟨x, y⟩ := e
        simp only [Memory.wfFrom, Bool.and_eq_true, decide_eq_true_eq] at hl ⊢
        exact ⟨⟨by omega, hl.1.2⟩, hl.2⟩
    simp only [Memory.write]
    split
    next hij =>
      split
      next hv => exact h'
      next hv =>
        simp only [Memory.wfFrom, Bool.and_eq_true, decide_eq_true_eq, bne_iff_ne, ne_eq]
        exact ⟨⟨hi, hv⟩, ⟨by omega, by simpa using hw⟩, hrest⟩
    next hij =>
      split
      next hji =>
        subst hji
        split
        next hv => exact weaken lo (i + 1) rest (by omega) hrest
        next hv =>
          simp only [Memory.wfFrom, Bool.and_eq_true, decide_eq_true_eq, bne_iff_ne, ne_eq]
          exact ⟨⟨hi, hv⟩, hrest⟩
      next hji =>
        simp only [Memory.wfFrom, Bool.and_eq_true, decide_eq_true_eq]
        exact ⟨⟨hlo, hw⟩, ih (j + 1) hrest (by omega)⟩

/-- `MemWrite(BUF, i, v)` keeps the canonical form of the memory. -/
theorem Memory_wf_write (m : Memory) (i : Nat) (v : Word) (h : m.wf = true) : (m.write i v).wf = true :=
  Memory_wfFrom_write m 0 i v h (Nat.zero_le i)

theorem Memory_within_cons (e : Nat × Word) (m : Memory) (n : Nat) :
    Memory.within (e :: m) n = true ↔ e.1 < n ∧ Memory.within m n = true := by
  simp only [Memory.within, List.all_cons, Bool.and_eq_true, decide_eq_true_eq]

/-- A write at an index of the space lists no index outside it. -/
theorem Memory_within_write (m : Memory) (n i : Nat) (v : Word) (h : m.within n = true) (hi : i < n) :
    (m.write i v).within n = true := by
  induction m with
  | nil =>
    by_cases hv : v = Memory.blank
    · simp [Memory.write, hv, Memory.within]
    · simp [Memory.write, hv, Memory.within, hi]
  | cons e rest ih =>
    obtain ⟨j, w⟩ := e
    obtain ⟨hj, hr⟩ := (Memory_within_cons _ _ _).mp h
    have hc := fun a r => (Memory_within_cons a r n).mpr
    simp only [Memory.write]
    split_ifs
    · exact h
    · exact hc _ _ ⟨hi, h⟩
    · exact hr
    · exact hc _ _ ⟨hi, hr⟩
    · exact hc _ _ ⟨hj, ih hr⟩

/-- An index outside the space reads as blank. -/
theorem Memory_read_outside (m : Memory) (n i : Nat) (h : m.within n = true) (hi : n ≤ i) :
    m.read i = Memory.blank := by
  induction m with
  | nil => rfl
  | cons e rest ih =>
    obtain ⟨j, w⟩ := e
    obtain ⟨hj, hr⟩ := (Memory_within_cons _ _ _).mp h
    have hne : i ≠ j := by
      intro he
      rw [he] at hi
      exact absurd hj (by omega)
    simp only [Memory.read, if_neg hne]
    exact ih hr

/-- The memory after reset is in canonical form. -/
theorem State_reset_buf_wf : State.reset.proc.buf.wf = true := rfl

end Sys2Proof.Machine
end

