-- ==== Sys2Proof/Laws/State.lean ====
section
/-!
SUPPORT. What each named update of the state does to each field, one lemma a field, true by rfl.
-/

namespace Sys2Proof.Machine

/-! ### State.setAcq -/

@[simp] theorem State_setAcq_cfg (s : State) (a : Acq) : (s.setAcq a).cfg = s.cfg := rfl

@[simp] theorem State_setAcq_acq (s : State) (a : Acq) : (s.setAcq a).acq = a := rfl

@[simp] theorem State_setAcq_shared (s : State) (a : Acq) : (s.setAcq a).shared = s.shared := rfl

@[simp] theorem State_setAcq_proc (s : State) (a : Acq) : (s.setAcq a).proc = s.proc := rfl

@[simp] theorem State_setAcq_clk (s : State) (a : Acq) : (s.setAcq a).clk = s.clk := rfl

@[simp] theorem State_setAcq_script (s : State) (a : Acq) : (s.setAcq a).script = s.script := rfl

/-! ### State.setShared -/

@[simp] theorem State_setShared_cfg (s : State) (h : Shared) : (s.setShared h).cfg = s.cfg := rfl

@[simp] theorem State_setShared_acq (s : State) (h : Shared) : (s.setShared h).acq = s.acq := rfl

@[simp] theorem State_setShared_shared (s : State) (h : Shared) : (s.setShared h).shared = h := rfl

@[simp] theorem State_setShared_proc (s : State) (h : Shared) : (s.setShared h).proc = s.proc := rfl

@[simp] theorem State_setShared_clk (s : State) (h : Shared) : (s.setShared h).clk = s.clk := rfl

@[simp] theorem State_setShared_script (s : State) (h : Shared) : (s.setShared h).script = s.script := rfl

/-! ### State.setProc -/

@[simp] theorem State_setProc_cfg (s : State) (q : Proc) : (s.setProc q).cfg = s.cfg := rfl

@[simp] theorem State_setProc_acq (s : State) (q : Proc) : (s.setProc q).acq = s.acq := rfl

@[simp] theorem State_setProc_shared (s : State) (q : Proc) : (s.setProc q).shared = s.shared := rfl

@[simp] theorem State_setProc_proc (s : State) (q : Proc) : (s.setProc q).proc = q := rfl

@[simp] theorem State_setProc_clk (s : State) (q : Proc) : (s.setProc q).clk = s.clk := rfl

@[simp] theorem State_setProc_script (s : State) (q : Proc) : (s.setProc q).script = s.script := rfl

/-! ### State.setClock -/

@[simp] theorem State_setClock_cfg (s : State) (t : Time) : (s.setClock t).cfg = s.cfg := rfl

@[simp] theorem State_setClock_acq (s : State) (t : Time) : (s.setClock t).acq = s.acq := rfl

@[simp] theorem State_setClock_shared (s : State) (t : Time) : (s.setClock t).shared = s.shared := rfl

@[simp] theorem State_setClock_proc (s : State) (t : Time) : (s.setClock t).proc = s.proc := rfl

@[simp] theorem State_setClock_clk (s : State) (t : Time) : (s.setClock t).clk = t := rfl

@[simp] theorem State_setClock_script (s : State) (t : Time) : (s.setClock t).script = s.script := rfl

/-! ### State.popTurn -/

@[simp] theorem State_popTurn_cfg (s : State) : (s.popTurn).cfg = s.cfg := rfl

@[simp] theorem State_popTurn_acq (s : State) : (s.popTurn).acq = s.acq := rfl

@[simp] theorem State_popTurn_shared (s : State) : (s.popTurn).shared = s.shared := rfl

@[simp] theorem State_popTurn_proc (s : State) : (s.popTurn).proc = s.proc := rfl

@[simp] theorem State_popTurn_clk (s : State) : (s.popTurn).clk = s.clk := rfl

@[simp] theorem State_popTurn_script (s : State) : (s.popTurn).script = s.script.tail := rfl

/-! ### State.resetCore -/

@[simp] theorem State_resetCore_cfg (s : State) : (s.resetCore).cfg = s.cfg := rfl

@[simp] theorem State_resetCore_acq (s : State) : (s.resetCore).acq = { Acq.reset with draws := s.acq.draws } := rfl

@[simp] theorem State_resetCore_shared (s : State) : (s.resetCore).shared = Shared.reset := rfl

@[simp] theorem State_resetCore_proc (s : State) : (s.resetCore).proc = { Proc.reset with draws := s.proc.draws } := rfl

@[simp] theorem State_resetCore_clk (s : State) : (s.resetCore).clk = s.clk := rfl

@[simp] theorem State_resetCore_script (s : State) : (s.resetCore).script = s.script := rfl

/-! ### State.initial -/

@[simp] theorem State_initial_cfg (c : Cfg) (t : Time) : (State.initial c t).cfg = c := rfl

@[simp] theorem State_initial_acq (c : Cfg) (t : Time) : (State.initial c t).acq = Acq.reset := rfl

@[simp] theorem State_initial_shared (c : Cfg) (t : Time) : (State.initial c t).shared = Shared.reset := rfl

@[simp] theorem State_initial_proc (c : Cfg) (t : Time) : (State.initial c t).proc = Proc.reset := rfl

@[simp] theorem State_initial_clk (c : Cfg) (t : Time) : (State.initial c t).clk = t := rfl

@[simp] theorem State_initial_script (c : Cfg) (t : Time) : (State.initial c t).script = [] := rfl

/-! ### The hand-off operations -/

@[simp] theorem emitPair_cfg (s : State) (a b : Word) : (emitPair s a b).cfg = s.cfg := rfl

@[simp] theorem emitPair_proc (s : State) (a b : Word) : (emitPair s a b).proc = s.proc := rfl

@[simp] theorem emitPair_clk (s : State) (a b : Word) : (emitPair s a b).clk = s.clk := rfl

@[simp] theorem emitPair_script (s : State) (a b : Word) : (emitPair s a b).script = s.script := rfl

@[simp] theorem emitPair_acq (s : State) (a b : Word) :
    (emitPair s a b).acq = { s.acq with acc0 := ChanAcc.zero, acc1 := ChanAcc.zero } := rfl

@[simp] theorem emitPair_ready (s : State) (a b : Word) : (emitPair s a b).shared.ready = true := rfl

@[simp] theorem emitPair_frstPend (s : State) (a b : Word) :
    (emitPair s a b).shared.frstPend = s.shared.frstPend := rfl

@[simp] theorem filterReset_cfg (s : State) : (filterReset s).cfg = s.cfg := rfl

@[simp] theorem filterReset_acq (s : State) : (filterReset s).acq = s.acq := rfl

@[simp] theorem filterReset_clk (s : State) : (filterReset s).clk = s.clk := rfl

@[simp] theorem filterReset_script (s : State) : (filterReset s).script = s.script := rfl

@[simp] theorem filterReset_shared (s : State) :
    (filterReset s).shared = { s.shared with frstPend := false } := rfl

@[simp] theorem filterReset_proc (s : State) :
    (filterReset s).proc =
      { s.proc with d0 := Delay.zero, d1 := Delay.zero, d2 := Delay.zero, stage := 0x10#8 } := rfl

@[simp] theorem latchPair_cfg (s : State) : (latchPair s).cfg = s.cfg := rfl

@[simp] theorem latchPair_acq (s : State) : (latchPair s).acq = s.acq := rfl

@[simp] theorem latchPair_clk (s : State) : (latchPair s).clk = s.clk := rfl

@[simp] theorem latchPair_script (s : State) : (latchPair s).script = s.script := rfl

@[simp] theorem latchPair_shared (s : State) : (latchPair s).shared = { s.shared with ready := false } := rfl

@[simp] theorem latchPair_proc (s : State) :
    (latchPair s).proc =
      { s.proc with lv0 := s.shared.hv0, lv1 := s.shared.hv1, stage := 0x11#8 } := rfl

/-! ### Channels and sections -/

@[simp] theorem Acq_chan_setChan (a : Acq) (c : Chan) (v : ChanAcc) : (a.setChan c v).chan c = v := by
  cases c <;> rfl

@[simp] theorem Acq_chan_setChan_other (a : Acq) (c : Chan) (v : ChanAcc) :
    (a.setChan c v).chan c.other = a.chan c.other := by
  cases c <;> rfl

@[simp] theorem Acq_setChan_draws (a : Acq) (c : Chan) (v : ChanAcc) : (a.setChan c v).draws = a.draws := by
  cases c <;> rfl

@[simp] theorem Proc_output_setOutput (q : Proc) (k : Sec) (v : Word) : (q.setOutput k v).output k = v := by
  cases k <;> rfl

@[simp] theorem Proc_delay_setDelay (q : Proc) (k : Sec) (d : Delay) : (q.setDelay k d).delay k = d := by
  cases k <;> rfl

@[simp] theorem Proc_delay_setOutput (q : Proc) (k j : Sec) (v : Word) : (q.setOutput k v).delay j = q.delay j := by
  cases k <;> cases j <;> rfl

@[simp] theorem Proc_output_setDelay (q : Proc) (k j : Sec) (d : Delay) : (q.setDelay k d).output j = q.output j := by
  cases k <;> cases j <;> rfl

theorem Proc_delay_setDelay_ne (q : Proc) (k j : Sec) (d : Delay) (h : j ≠ k) :
    (q.setDelay k d).delay j = q.delay j := by
  cases k <;> cases j <;> first | rfl | exact absurd rfl h

/-- The device's own configuration is well formed whatever its open table is (00_scope.md R6). -/
theorem Config_build_tableOk : devCatsOk Config.build.devTab = true ∧ devCountOk Config.build.devTab = true := by
  unfold Config.build
  dsimp only
  split
  next h => exact (Bool.and_eq_true _ _).mp h
  next => exact ⟨rfl, rfl⟩

end Sys2Proof.Machine
end

