-- ==== Sys2Proof/Laws/Ops.lean ====
section
/-!
SUPPORT. One lemma for each shared operation and each meaning that can answer in more than one way: everything it can do.
-/

namespace Sys2Proof.Machine

@[simp] theorem channelOf_channelCode (c : Chan) : channelOf (channelCode c) = some c := by cases c <;> rfl

/-- A channel identifier names a channel exactly when it is well formed, and then it is that channel's code. -/
theorem channelOf_cases (ch : Code8) :
    (∃ c, channelOf ch = some c ∧ ch = channelCode c ∧ channelOk ch = true) ∨
    (channelOf ch = none ∧ channelOk ch = false) := by
  by_cases h0 : ch = 0x00#8
  · subst h0
    exact .inl ⟨.ch0, rfl, rfl, rfl⟩
  · by_cases h1 : ch = 0x01#8
    · subst h1
      exact .inl ⟨.ch1, rfl, rfl, rfl⟩
    · refine .inr ⟨by simp [channelOf, h0, h1], ?_⟩
      simp [channelOk, h0, h1]

/-- What SAMPLE can answer. -/
theorem execSample_cases (ch : Code8) (raw : Word) (ts : Time) (s : State) :
    (channelOf ch = none ∧ execSample ch raw ts s = .next s) ∨
    (∃ c, channelOf ch = some c ∧ countFull s.cfg (s.acq.chan c) = true ∧
      execSample ch raw ts s = .fault .lockstepViolation) ∨
    (∃ c, channelOf ch = some c ∧ countFull s.cfg (s.acq.chan c) = false ∧
      execSample ch raw ts s = .next (acceptSample c raw s)) := by
  unfold execSample
  cases hc : channelOf ch with
  | none => exact .inl ⟨rfl, rfl⟩
  | some c =>
    cases hf : countFull s.cfg (s.acq.chan c) with
    | true => exact .inr (.inl ⟨c, rfl, hf, by simp [hf]⟩)
    | false => exact .inr (.inr ⟨c, rfl, hf, by simp [hf]⟩)

/-- What BPUSH can answer. -/
theorem execBpush_cases (s : State) :
    (cursorOk s.cfg s.proc = false ∧ execBpush s = .fault .bufIndexOutside) ∨
    (cursorOk s.cfg s.proc = true ∧
      execBpush s = .next (s.setProc { s.proc with
        buf := s.proc.buf.write s.proc.cur.toNat s.proc.p
        cur := if cursorLast s.cfg s.proc then 0#32 else s.proc.cur + 1#32
        full := s.proc.full || cursorLast s.cfg s.proc
        stage := 0x16#8 })) := by
  unfold execBpush
  cases h : cursorOk s.cfg s.proc with
  | true => exact .inr ⟨rfl, by simp⟩
  | false => exact .inl ⟨rfl, by simp⟩

/-- An accepted sample touches ACQ's registers and the hand-off alone. -/
theorem acceptSample_frame (c : Chan) (raw : Word) (s : State) :
    (acceptSample c raw s).cfg = s.cfg ∧ (acceptSample c raw s).proc = s.proc ∧
    (acceptSample c raw s).clk = s.clk ∧ (acceptSample c raw s).script = s.script ∧
    (acceptSample c raw s).shared.frstPend = s.shared.frstPend := by
  unfold acceptSample
  dsimp only
  split <;> simp

/-- What WAIT can answer. -/
theorem execWait_cases (s : State) :
    (s.shared.frstPend = true ∧ execWait s = .next (filterReset s)) ∨
    (s.shared.frstPend = false ∧ s.shared.ready = true ∧ execWait s = .next (latchPair s)) ∨
    (s.shared.frstPend = false ∧ s.shared.ready = false ∧ execWait s = .next s) := by
  unfold execWait
  cases h1 : s.shared.frstPend <;> cases h2 : s.shared.ready <;> simp

/-- One biquad stage touches PROC's registers alone. -/
theorem runSection_frame (k : Sec) (next : Code8) (s : State) :
    (runSection k next s).cfg = s.cfg ∧ (runSection k next s).acq = s.acq ∧
    (runSection k next s).shared = s.shared ∧ (runSection k next s).clk = s.clk ∧
    (runSection k next s).script = s.script := ⟨rfl, rfl, rfl, rfl, rfl⟩

end Sys2Proof.Machine
end

