-- ==== Sys2Proof/Laws/PerInstr.lean ====
section
/-!
SUPPORT. Statements about every operation, one lemma a constructor.
-/

namespace Sys2Proof.Laws

/-- The code of an operation as one number, masked by its row of spec/opcode_table.json, is the row's match
(30_encoding.md R86). -/
def TableRowFits.Statement (i : Instr) : Prop := (tableRow i).fits (encode i) = true

theorem packBeat_toNat (op ch : Code8) (raw : Word) (ts : Time) :
    (packBeat op ch raw ts).toNat = op.toNat * 2 ^ 104 + (ch.toNat * 2 ^ 96 + (raw.toNat * 2 ^ 64 + ts.toNat)) := by
  have app : ∀ (v w : Nat) (x : BitVec v) (y : BitVec w), (x ++ y).toNat = x.toNat * 2 ^ w + y.toNat := by
    intro v w x y
    rw [BitVec.toNat_append, Nat.shiftLeft_eq, Nat.mul_comm, ← Nat.two_pow_add_eq_or_of_lt y.isLt]
  unfold packBeat
  rw [app, app, app]

/-- The mask of an H-format row keeps the operation code alone. -/
theorem mask_op (n : Nat) (h : n < 2 ^ 112) :
    n &&& 0xFF00000000000000000000000000 = n / 2 ^ 104 * 2 ^ 104 := by
  apply Nat.eq_of_testBit_eq
  intro i
  have hm : (0xFF00000000000000000000000000 : Nat) = (2 ^ 8 - 1) * 2 ^ 104 := by decide
  rw [Nat.testBit_and, hm, Nat.testBit_mul_two_pow, Nat.testBit_mul_two_pow, Nat.testBit_div_two_pow,
    Nat.testBit_two_pow_sub_one]
  by_cases hi : 104 ≤ i
  · rw [Nat.sub_add_cancel hi]
    by_cases h8 : i - 104 < 8
    · simp [hi, h8]
    · have : n.testBit i = false :=
        Nat.testBit_lt_two_pow (Nat.lt_of_lt_of_le h (Nat.pow_le_pow_right (by decide) (by omega)))
      simp [this]
  · simp [hi]

theorem fits_beat (op ch : Code8) (raw : Word) (ts : Time) :
    (packBeat op ch raw ts).toNat &&& 0xFF00000000000000000000000000 = op.toNat * 2 ^ 104 := by
  have hc := ch.isLt
  have hr := raw.isLt
  have ht := ts.isLt
  rw [mask_op _ (packBeat op ch raw ts).isLt, packBeat_toNat]
  omega

theorem TableRowFits.sample (ch : Code8) (raw : Word) (ts : Time) : Statement (.sample ch raw ts) := by
  have h := fits_beat 0x01#8 ch raw ts
  simp only [Statement, TableRow.fits, tableRow, encode, Code.width, Code.toNat, h]
  decide

theorem TableRowFits.freset : Statement .freset := by unfold Statement; decide
theorem TableRowFits.wait : Statement .wait := by unfold Statement; decide
theorem TableRowFits.pwr : Statement .pwr := by unfold Statement; decide
theorem TableRowFits.bq0 : Statement .bq0 := by unfold Statement; decide
theorem TableRowFits.bq1 : Statement .bq1 := by unfold Statement; decide
theorem TableRowFits.bq2 : Statement .bq2 := by unfold Statement; decide
theorem TableRowFits.bpush : Statement .bpush := by unfold Statement; decide
theorem TableRowFits.detect : Statement .detect := by unfold Statement; decide
theorem TableRowFits.classify : Statement .classify := by unfold Statement; decide
theorem TableRowFits.emit : Statement .emit := by unfold Statement; decide
theorem TableRowFits.base : Statement .base := by unfold Statement; decide
theorem TableRowFits.status : Statement .status := by unfold Statement; decide

end Sys2Proof.Laws
end

