-- ==== Sys2Proof/Laws/Step.lean ====
section
/-!
SUPPORT. What a step can do, said once: by the turn that comes next and the operation its code stands for.
-/

namespace Sys2Proof.Machine

/-- What a beat decodes to. -/
theorem decodeBeat_cases (cmd : Beat) :
    (beatOp cmd = 0x01#8 ∧ decodeBeat cmd = .ok (.sample (beatCh cmd) (beatRaw cmd) (beatTs cmd))) ∨
    (beatOp cmd = 0x02#8 ∧ decodeBeat cmd = .ok .freset) ∨
    (beatOp cmd ≠ 0x01#8 ∧ beatOp cmd ≠ 0x02#8 ∧ decodeBeat cmd = .error (.reservedOpcode (beatOp cmd))) := by
  unfold decodeBeat
  by_cases h1 : beatOp cmd = 0x01#8
  · exact .inl ⟨h1, if_pos h1⟩
  · by_cases h2 : beatOp cmd = 0x02#8
    · exact .inr (.inl ⟨h2, by rw [if_neg h1, if_pos h2]⟩)
    · exact .inr (.inr ⟨h1, h2, by rw [if_neg h1, if_neg h2]⟩)

/-- The decoder of stage codes answers an operation whose code it is, or rejects an illegal code. -/
def stageDecodes (code : Code8) : Bool :=
  match decodeStage code with
  | .ok i => decide (encode i = .stage code) && stageOk code
  | .error e => decide (e = .illegalStage code) && !stageOk code

theorem stageDecodes_all : ∀ n : Fin 256, stageDecodes (BitVec.ofFin n) = true := by decide +kernel

theorem stageDecodes_true (code : Code8) : stageDecodes code = true := stageDecodes_all code.toFin

/-- What a stage code decodes to. -/
theorem decodeStage_cases (code : Code8) :
    (∃ i, decodeStage code = .ok i ∧ encode i = .stage code ∧ stageOk code = true) ∨
    (decodeStage code = .error (.illegalStage code) ∧ stageOk code = false) := by
  have h := stageDecodes_true code
  unfold stageDecodes at h
  cases hd : decodeStage code with
  | ok i =>
    rw [hd] at h
    simp only [Bool.and_eq_true, decide_eq_true_eq] at h
    exact .inl ⟨i, rfl, h⟩
  | error e =>
    rw [hd] at h
    simp only [Bool.and_eq_true, decide_eq_true_eq, Bool.not_eq_true'] at h
    exact .inr ⟨by rw [h.1], h.2⟩

/-- The stage code of a decoded stage operation. -/
theorem decodeStage_ok (code : Code8) (i : Instr) (h : decodeStage code = .ok i) : encode i = .stage code := by
  rcases decodeStage_cases code with ⟨j, hj, he, _⟩ | ⟨hj, _⟩ <;> rw [hj] at h
  · rw [← Except.ok.inj h]
    exact he
  · exact absurd h (by simp)

/-- A stage operation's code is the stage code its constructor has in 30_encoding.md R74. -/
theorem decodeStage_encode (i : Instr) (code : Code8) (h : encode i = .stage code) : decodeStage code = .ok i := by
  cases i <;> simp only [encode, Code.stage.injEq, reduceCtorEq] at h <;> subst h <;> decide

/-- The turns of a step, and what the step answers for each. -/
theorem step_cases (s : State) :
    (∃ cmd, s.nextTurn = .beat cmd ∧ step s = runCode (.beat cmd) s.popTurn) ∨
    (s.nextTurn = .proc ∧ step s = runCode (.stage s.proc.stage) s.popTurn) ∨
    (∃ now, s.nextTurn = .clock now ∧ step s = .next (s.popTurn.setClock now)) ∨
    (s.nextTurn = .reset ∧ step s = .next s.popTurn.resetCore) ∨
    (s.nextTurn = .idle ∧ step s = .next s.popTurn) := by
  unfold step
  cases h : s.nextTurn with
  | beat cmd => exact .inl ⟨cmd, rfl, rfl⟩
  | proc => exact .inr (.inl ⟨rfl, rfl⟩)
  | clock now => exact .inr (.inr (.inl ⟨now, rfl, rfl⟩))
  | reset => exact .inr (.inr (.inr (.inl ⟨rfl, rfl⟩)))
  | idle => exact .inr (.inr (.inr (.inr ⟨rfl, rfl⟩)))

theorem runCode_ok (c : Code) (i : Instr) (s : State) (h : decode c = .ok i) : runCode c s = exec i s := by
  unfold runCode
  rw [h]

theorem runCode_error (c : Code) (e : DecodeError) (s : State) (h : decode c = .error e) :
    runCode c s = .next s := by
  unfold runCode
  rw [h]

/-- What a step that answers a next state was: a beat that was dropped, a host command, one of PROC's stages, PROC with no
enabled step, or a step of the host. -/
theorem step_next_cases (s t : State) (h : step s = .next t) :
    (∃ cmd, s.nextTurn = .beat cmd ∧ t = s.popTurn) ∨
    (∃ cmd i, s.nextTurn = .beat cmd ∧ decodeBeat cmd = .ok i ∧ exec i s.popTurn = .next t) ∨
    (s.nextTurn = .proc ∧ t = s.popTurn ∧ stageOk s.proc.stage = false) ∨
    (∃ i, s.nextTurn = .proc ∧ decodeStage s.proc.stage = .ok i ∧ exec i s.popTurn = .next t) ∨
    (∃ now, s.nextTurn = .clock now ∧ t = s.popTurn.setClock now) ∨
    (s.nextTurn = .reset ∧ t = s.popTurn.resetCore) ∨
    (s.nextTurn = .idle ∧ t = s.popTurn) := by
  rcases step_cases s with ⟨cmd, ht, hs⟩ | ⟨ht, hs⟩ | ⟨now, ht, hs⟩ | ⟨ht, hs⟩ | ⟨ht, hs⟩ <;> rw [hs] at h
  · cases hd : decodeBeat cmd with
    | error e =>
      rw [runCode_error (.beat cmd) e _ hd] at h
      cases h
      exact .inl ⟨cmd, ht, rfl⟩
    | ok i =>
      rw [runCode_ok (.beat cmd) i _ hd] at h
      exact .inr (.inl ⟨cmd, i, ht, hd, h⟩)
  · cases hd : decodeStage s.proc.stage with
    | error e =>
      rw [runCode_error (.stage s.proc.stage) e _ hd] at h
      cases h
      refine .inr (.inr (.inl ⟨ht, rfl, ?_⟩))
      rcases decodeStage_cases s.proc.stage with ⟨j, hj, _, _⟩ | ⟨_, hk⟩
      · rw [hj] at hd
        exact absurd hd (by simp)
      · exact hk
    | ok i =>
      rw [runCode_ok (.stage s.proc.stage) i _ hd] at h
      exact .inr (.inr (.inr (.inl ⟨i, ht, rfl, h⟩)))
  · cases h
    exact .inr (.inr (.inr (.inr (.inl ⟨now, ht, rfl⟩))))
  · cases h
    exact .inr (.inr (.inr (.inr (.inr (.inl ⟨ht, rfl⟩)))))
  · cases h
    exact .inr (.inr (.inr (.inr (.inr (.inr ⟨ht, rfl⟩)))))

end Sys2Proof.Machine
end

