-- ==== Sys2Proof/Tests/Slice0.lean ====
section
/-!
SUPPORT. Tests. Expected values are the vectors of 95_test_vectors.md (named in each comment) or worked out by hand from
the rule named. First the ill-formed terms, then the decoder, numbers, one step of each operation, and last, for every
statement with hypotheses, a witness that meets them.
-/

namespace Sys2Proof.Tests

open Sys2Proof Sys2Proof.Machine

/-- The three sections of `CFG_T` (95_test_vectors.md section 0). -/
def hpT0 : Coefs := ⟨0x3F800000#32, 0xBF800000#32, 0x00000000#32, 0xBF000000#32, 0x00000000#32⟩
def hpT1 : Coefs := ⟨0x3F800000#32, 0xBF800000#32, 0x00000000#32, 0xBE800000#32, 0x00000000#32⟩
def hpT2 : Coefs := ⟨0x3F800000#32, 0xC0000000#32, 0x3F800000#32, 0xBF800000#32, 0x3E800000#32⟩

/-- The device table of `CFG_T`. -/
def tableT : List DevRange :=
  [⟨0x03#8, 0x42C80000#32, 0x43C80000#32, "Computer"⟩, ⟨0x04#8, 0x42C80000#32, 0x43960000#32, ""⟩,
    ⟨0x05#8, 0x44960000#32, 0x44FA0000#32, "Dishwasher"⟩]

/-- `CFG_T`. -/
def cfgT : Cfg :=
  { adcRateHz := 20, targetRateHz := 10, scale := 0x42C80000#32, hp0 := hpT0, hp1 := hpT1, hp2 := hpT2
    ringSize := 4, eventThreshold := 0x42C80000#32, debounceMs := 500#64, otherFloor := 0x42480000#32
    devTab := tableT, statusInterval := 4#32 }

/-- The reset state under `CFG_T` with the clock at 5200. -/
def s0 : State := State.initial cfgT 5200#64

/-- `s0` with PROC's registers changed. -/
def withProc (f : Proc → Proc) : State := { s0 with proc := f s0.proc }

/-- `s0` with PROC's turn or a beat first in the schedule. -/
def withTurn (t : Turn) (s : State) : State := { s with script := [t] }

/-- The next state, where there is one. -/
def nextOf : Result → Option State
  | .next t => some t
  | .fault _ => none
  | .refused _ => none

/-- A NaN pattern. -/
def someNaN : Word := 0x7FC00000#32

/-! ### Ill-formed terms are refused -/

theorem test_wf_cfgT : cfgT.wf = true := by decide
theorem test_wf_refuses_channel : (Instr.sample 0x02#8 0#32 0#64).wf = false ∧ channelOk 0xFF#8 = false := by decide
theorem test_wf_refuses_stage : stageOk 0x0F#8 = false ∧ stageOk 0x1B#8 = false := by decide
theorem test_wf_refuses_adcRate : ({ cfgT with adcRateHz := 0 } : Cfg).adcRateOk = false := by decide
theorem test_wf_refuses_targetRate : ({ cfgT with targetRateHz := 0 } : Cfg).targetRateOk = false := by decide
theorem test_wf_refuses_ratio : ({ cfgT with adcRateHz := 25 } : Cfg).ratioOk = false := by decide
theorem test_wf_refuses_decim :
    ({ cfgT with adcRateHz := 5 } : Cfg).decimOk = false ∧
    ({ cfgT with adcRateHz := 4294967296, targetRateHz := 1 } : Cfg).decimOk = false := by decide
theorem test_wf_refuses_ring :
    ({ cfgT with ringSize := 0 } : Cfg).ringOk = false ∧
    ({ cfgT with ringSize := 4294967296 } : Cfg).ringOk = false := by decide
theorem test_wf_refuses_category :
    ({ cfgT with devTab := [⟨0x02#8, 0#32, 0#32, ""⟩] } : Cfg).tableOk = false := by decide
theorem test_wf_refuses_long_table (e : DevRange) : devCountOk (List.replicate 65536 e) = false := by
  unfold devCountOk
  rw [List.length_replicate]
  decide
theorem test_wf_refuses_each :
    ({ cfgT with adcRateHz := 0 } : Cfg).wf = false ∧ ({ cfgT with targetRateHz := 0 } : Cfg).wf = false ∧
    ({ cfgT with adcRateHz := 25 } : Cfg).wf = false ∧ ({ cfgT with ringSize := 0 } : Cfg).wf = false ∧
    ({ cfgT with devTab := [⟨0x02#8, 0#32, 0#32, ""⟩] } : Cfg).wf = false ∧
    State.powerUp { cfgT with ringSize := 0 } 0#64 = none := by decide

/-! ### Every constructor's decoding, from words written out (30_encoding.md R71 to R74) -/

/-- `op = 0x01`, `ch = 0x01`, `raw = 0x40C00000`, `ts = 0x0102030405060708`, eight bits a field byte from the top. -/
theorem test_decode_sample :
    decode (.beat 0x010140C000000102030405060708#112) =
      .ok (.sample 0x01#8 0x40C00000#32 0x0102030405060708#64) := by decide
/-- The fields of a FRESET are ignored (30_encoding.md R81). -/
theorem test_decode_freset :
    decode (.beat 0x0200000000000000000000000000#112) = .ok .freset ∧
    decode (.beat 0x02FF7FC000000000000000000001#112) = .ok .freset := by decide
theorem test_decode_wait : decode (.stage 0b00010000#8) = .ok .wait := by decide
theorem test_decode_pwr : decode (.stage 0b00010001#8) = .ok .pwr := by decide
theorem test_decode_bq0 : decode (.stage 0b00010010#8) = .ok .bq0 := by decide
theorem test_decode_bq1 : decode (.stage 0b00010011#8) = .ok .bq1 := by decide
theorem test_decode_bq2 : decode (.stage 0b00010100#8) = .ok .bq2 := by decide
theorem test_decode_bpush : decode (.stage 0b00010101#8) = .ok .bpush := by decide
theorem test_decode_detect : decode (.stage 0b00010110#8) = .ok .detect := by decide
theorem test_decode_classify : decode (.stage 0b00010111#8) = .ok .classify := by decide
theorem test_decode_emit : decode (.stage 0b00011000#8) = .ok .emit := by decide
theorem test_decode_base : decode (.stage 0b00011001#8) = .ok .base := by decide
theorem test_decode_status : decode (.stage 0b00011010#8) = .ok .status := by decide
/-- V-SEQ-8, and the codes on either side of the eleven. -/
theorem test_decode_rejects :
    decode (.beat 0x7F00411000000000000000000000#112) = .error (.reservedOpcode 0x7F#8) ∧
    decode (.beat 0#112) = .error (.reservedOpcode 0#8) ∧ decode (.stage 0x0F#8) = .error (.illegalStage 0x0F#8) ∧
    decode (.stage 0x1B#8) = .error (.illegalStage 0x1B#8) := by decide
/-- The COEF words and DEVTAB entries that 95_test_vectors.md section 0 lists. -/
theorem test_read_only_words :
    coefRead cfgT 3 = some 0xBF000000#32 ∧ coefRead cfgT 8 = some 0xBE800000#32 ∧
    coefRead cfgT 14 = some 0x3E800000#32 ∧ devRead cfgT 0 = some 0x0342C8000043C80000#72 ∧
    devRead cfgT 2 = some 0x054496000044FA0000#72 := by decide
/-- The records of V-SEQ-9. -/
theorem test_record_words :
    packEvent ⟨5200#64, 0x44E10000#32, true, 5#8, 0x44E10000#32⟩ = 0x000000000000028A089C200010544E10000#137 ∧
    packStatus ⟨0x44E10000#32, true, 0x44610000#32, 0xC50CA000#32⟩ = 0x089C2000144610000C50CA000#97 := by decide

/-! ### Numbers (V-NUM) -/

theorem test_num_products :
    fmul someNaN 0x3DCCCCCD#32 0x3E4CCCCD#32 = 0x3CA3D70B#32 ∧ fmul someNaN 0x00800000#32 0x3F000000#32 = 0x00400000#32 ∧
    fmul someNaN 0x00000003#32 0x3F000000#32 = 0x00000002#32 ∧
    fmul someNaN 0x00000001#32 0x3F000000#32 = 0x00000000#32 ∧
    fmul someNaN 0x00000000#32 0xC459F800#32 = 0x80000000#32 := by decide
theorem test_num_sums :
    fadd someNaN 0x44DE247B#32 0xC4DE2000#32 = 0x3E0F6000#32 ∧ fadd someNaN 0x3DCCCCCD#32 0x3E4CCCCD#32 = 0x3E99999A#32 ∧
    fadd someNaN 0x7F7FFFFF#32 0x7F7FFFFF#32 = 0x7F800000#32 ∧ fadd someNaN 0x7F7FFFFF#32 0x73000000#32 = 0x7F800000#32 ∧
    fadd someNaN 0x7F7FFFFF#32 0x72FFFFFF#32 = 0x7F7FFFFF#32 ∧ fsub someNaN 0x80000000#32 0#32 = 0x80000000#32 ∧
    fsub someNaN 0x80000000#32 0x80000000#32 = 0#32 ∧ fsub someNaN 0x44E10000#32 0x44E10000#32 = 0#32 := by decide
theorem test_num_quotients_and_integers :
    fdiv someNaN 0x3F800000#32 0x40400000#32 = 0x3EAAAAAB#32 ∧ fdiv someNaN 0xBF800000#32 0#32 = 0xFF800000#32 ∧
    i2f 2000 = 0x44FA0000#32 ∧ i2f 2 = 0x40000000#32 ∧ i2f 16777217 = 0x4B800000#32 ∧ i2f 16777219 = 0x4B800002#32 := by
  decide
theorem test_num_comparisons :
    fabs 0x80000000#32 = 0#32 ∧ fabs 0xC4BEF140#32 = 0x44BEF140#32 ∧ fabs 0xFFC00000#32 = 0x7FC00000#32 ∧
    fgt 0#32 0x80000000#32 = false ∧ fle 0x80000000#32 0#32 = true ∧ fgt someNaN 0x3F800000#32 = false ∧
    fle someNaN someNaN = false ∧ fgt 0x7F800000#32 0x7F7FFFFF#32 = true := by decide

/-! ### One step of each operation -/

/-- R90's example. -/
theorem test_sample_accumulates :
    (nextOf (exec (.sample 0x00#8 0x40400000#32 7#64) s0)).map (fun t => (t.acq.acc0, t.acq.acc1.n, t.shared.ready)) =
      some (⟨0x40400000#32, 1#32⟩, 0#32, false) := by decide
/-- R91's example: the emission of (3.0, 6.0). -/
theorem test_sample_emits :
    (nextOf (exec (.sample 0x01#8 0#32 0#64)
      { s0 with acq := { s0.acq with acc0 := ⟨0x40C00000#32, 2#32⟩, acc1 := ⟨0x41400000#32, 1#32⟩ } })).map
        (fun t => (t.shared, t.acq.acc0, t.acq.acc1)) =
      some (⟨0x40400000#32, 0x40C00000#32, true, false⟩, ⟨0#32, 0#32⟩, ⟨0#32, 0#32⟩) := by decide
theorem test_freset_sets_pend : (nextOf (exec .freset s0)).map (fun t => t.shared.frstPend) = some true := by decide
/-- V-SEQ-2. -/
theorem test_wait_latches :
    (nextOf (exec .wait { s0 with shared := ⟨0x40400000#32, 0x40C00000#32, true, false⟩ })).map
        (fun t => (t.proc.lv0, t.proc.lv1, t.proc.stage, t.shared)) =
      some (0x40400000#32, 0x40C00000#32, 0x11#8, ⟨0x40400000#32, 0x40C00000#32, false, false⟩) := by decide
/-- V-SEQ-3. -/
theorem test_wait_resets_first :
    (nextOf (exec .wait { withProc (fun q => { q with d2 := ⟨0xC4E10000#32, 0x44A8C000#32⟩ }) with
        shared := ⟨0x40400000#32, 0x40C00000#32, true, true⟩ })).map
        (fun t => (t.proc.d2, t.proc.stage, t.shared.ready, t.shared.frstPend)) =
      some (⟨0#32, 0#32⟩, 0x10#8, true, false) := by decide
/-- V-PWR a and d. -/
theorem test_pwr_product :
    (nextOf (exec .pwr (withProc fun q => { q with lv0 := 0x40400000#32, lv1 := 0x40C00000#32 }))).map
      (fun t => (t.proc.p, t.proc.stage)) = some (0x44E10000#32, 0x12#8) := by decide
theorem test_pwr_order :
    (nextOf (exec .pwr (withProc fun q => { q with lv0 := 0x3DCCCCCD#32, lv1 := 0x3E4CCCCD#32 }))).map
      (fun t => t.proc.p) = some 0x40000001#32 := by decide
/-- The examples of R106, R107, R108. -/
theorem test_bq0 :
    (nextOf (exec .bq0 (withProc fun q => { q with p := 0x44E10000#32 }))).map
      (fun t => (t.proc.y0, t.proc.d0, t.proc.stage)) = some (0x44E10000#32, ⟨0xC4610000#32, 0#32⟩, 0x13#8) := by decide
theorem test_bq1 :
    (nextOf (exec .bq1 (withProc fun q => { q with y0 := 0x44E10000#32 }))).map
      (fun t => (t.proc.y1, t.proc.d1, t.proc.stage)) = some (0x44E10000#32, ⟨0xC4A8C000#32, 0#32⟩, 0x14#8) := by decide
theorem test_bq2 :
    (nextOf (exec .bq2 (withProc fun q => { q with y1 := 0x44E10000#32 }))).map
      (fun t => (t.proc.y2, t.proc.d2, t.proc.stage)) =
      some (0x44E10000#32, ⟨0xC4E10000#32, 0x44A8C000#32⟩, 0x15#8) := by decide
/-- V-BQ-2: every operation rounds. -/
theorem test_biquad_rounds :
    biquadOut (fun _ => someNaN) ⟨0x3F7CBFB1#32, 0xBFFCBFB1#32, 0x3F7CBFB1#32, 0xBFFCB923#32, 0x3F79999A#32⟩
      ⟨0xC4DE2000#32, 0x44DA0000#32⟩ 0x44E10000#32 = 0x3E0F6000#32 ∧
    biquadDelay (fun _ => someNaN) ⟨0x3F7CBFB1#32, 0xBFFCBFB1#32, 0x3F7CBFB1#32, 0xBFFCB923#32, 0x3F79999A#32⟩
      ⟨0xC4DE2000#32, 0x44DA0000#32⟩ 0x44E10000#32 0x3E0F6000#32 = ⟨0xC4E2401E#32, 0x44DE201D#32⟩ := by decide
/-- R120's example. -/
theorem test_bpush_wraps :
    (nextOf (exec .bpush (withProc fun q => { q with p := 0x44E10000#32, cur := 3#32 }))).map
      (fun t => (t.proc.buf, t.proc.cur, t.proc.full)) = some ([(3, 0x44E10000#32)], 0#32, true) := by decide
/-- V-BL-1, the second push. -/
theorem test_bpush_goes_on :
    (nextOf (exec .bpush (withProc fun q => { q with p := 0x41A00000#32, cur := 1#32, buf := [(0, 0x41200000#32)] }))).map
      (fun t => (t.proc.buf.read 0, t.proc.buf.read 1, t.proc.buf.read 2, t.proc.cur, t.proc.full)) =
      some (0x41200000#32, 0x41A00000#32, 0#32, 2#32, false) := by decide
/-- V-DET-3: a gap of exactly the window is accepted; `cat` is left. -/
theorem test_detect_on :
    (nextOf (exec .detect { withProc (fun q => { q with y2 := 0x43160000#32, last := 5200#64, cat := 7#8 }) with
        clk := 5700#64 })).map (fun t => (t.proc.ev, t.proc.dir, t.proc.cat, t.proc.last, t.proc.stage)) =
      some (true, true, 7#8, 5700#64, 0x17#8) := by decide
/-- V-DET-2: one millisecond less is suppressed. -/
theorem test_detect_suppressed :
    (nextOf (exec .detect { withProc (fun q => { q with y2 := 0x43160000#32, last := 5200#64, cat := 7#8 }) with
        clk := 5699#64 })).map (fun t => (t.proc.ev, t.proc.dir, t.proc.cat, t.proc.last, t.proc.stage)) =
      some (false, false, 7#8, 5200#64, 0x19#8) := by decide
/-- 95_test_vectors.md section 2.7: the tie-break, and the floor. -/
theorem test_classify_first_match :
    (nextOf (exec .classify (withProc fun q => { q with y2 := 0x43160000#32 }))).map (fun t => t.proc.cat) =
      some 3#8 := by decide
theorem test_classify_values :
    classifyValue cfgT 0x42C7FFFF#32 = 1#8 ∧ classifyValue cfgT 0x44FA0000#32 = 5#8 ∧
    classifyValue cfgT 0x42480000#32 = 0#8 ∧ classifyValue cfgT 0xC3160000#32 = 3#8 ∧
    classifyValue cfgT someNaN = 0#8 ∧ classifyValue cfgT 0xFF800000#32 = 1#8 := by decide
/-- R152's example. -/
theorem test_emit :
    (nextOf (exec .emit (withProc fun q => { q with
        tnow := 5200#64, y2 := 0x44E10000#32, dir := true, cat := 5#8, p := 0x44E10000#32 }))).map
        (fun t => (t.proc.evt.map packEvent, t.proc.stage)) =
      some ([0x000000000000028A089C200010544E10000#137], 0x19#8) := by decide
/-- R121's example, and the buffer not yet full. -/
theorem test_base_full :
    (nextOf (exec .base (withProc fun q => { q with
        full := true, buf := [(2, 0x44E10000#32), (3, 0x44E10000#32)] }))).map (fun t => (t.proc.bvalid, t.proc.bval)) =
      some (true, 0x44610000#32) := by decide
theorem test_base_unavailable :
    (nextOf (exec .base (withProc fun q => { q with buf := [(0, 0x44E10000#32)], bval := 0x44610000#32 }))).map
      (fun t => (t.proc.bvalid, t.proc.bval, t.proc.stage)) = some (false, 0#32, 0x1A#8) := by decide
/-- R153's example, and one tick before it. -/
theorem test_status_due :
    (nextOf (exec .status (withProc fun q => { q with
        scnt := 3#32, p := 0x44E10000#32, bvalid := true, bval := 0x44610000#32, y2 := 0xC50CA000#32 }))).map
        (fun t => (t.proc.sts.map packStatus, t.proc.scnt, t.proc.stage)) =
      some ([0x089C2000144610000C50CA000#97], 0#32, 0x10#8) := by decide
theorem test_status_counts :
    (nextOf (exec .status (withProc fun q => { q with scnt := 2#32 }))).map (fun t => (t.proc.sts, t.proc.scnt)) =
      some ([], 3#32) := by decide
/-- Two operations placed by `withFetchWord` are what the next step runs, the first after reset too. -/
theorem test_fetch_beat :
    decodeTableWord 112 0x0200000000000000000000000000 = some .freset ∧
    (nextOf (step (s0.withFetchWord 112 0x0200000000000000000000000000))).map
      (fun t => (t.shared.frstPend, t.script)) = some (true, []) := by decide
theorem test_fetch_stage :
    decodeTableWord 8 0x15 = some .bpush ∧
    (nextOf (step (State.reset.withFetchWord 8 0x15))).map (fun t => (t.proc.cur, t.proc.stage)) =
      some (1#32, 0x16#8) := by decide

/-! ### Witnesses: states and operands that meet the hypotheses of the statements -/

theorem witness_decode :
    decodeBeat 0x0100404000000000000000000000#112 = .ok (.sample 0x00#8 0x40400000#32 0#64) ∧
    decodeStage 0x10#8 = .ok .wait ∧ decodeStage 0x1A#8 = .ok .status ∧ (0x0F#8).toNat < 0x10 ∧ 0x1A < (0x1B#8).toNat := by
  decide
theorem witness_table_row :
    (tableRow .base).fits (.stage 0x19#8) = true ∧ (tableRow .base).fits (.stage 0x1A#8) = false := by decide
theorem witness_read_only :
    cfgT.devTab[2]? = some ⟨0x05#8, 0x44960000#32, 0x44FA0000#32, "Dishwasher"⟩ ∧ cfgT.devTab.length ≤ 3 ∧
    coefRead cfgT 15 = none := by decide
/-- Finite operands with sum 0, sum not 0, difference 0, and a divisor that is not zero; the largest finite value. -/
theorem witness_finite :
    isFinite 0x3F800000#32 = true ∧ isFinite 0xBF800000#32 = true ∧ isFinite 0x7F7FFFFF#32 = true ∧
    isFinite 0x7F800000#32 = false ∧ valueOf 0x3F800000#32 + valueOf 0xBF800000#32 = 0 ∧
    valueOf 0x3F800000#32 + valueOf 0x3F800000#32 ≠ 0 ∧ valueOf 0x3F800000#32 - valueOf 0x3F800000#32 = 0 ∧
    valueOf 0x3F800000#32 - valueOf 0xBF800000#32 ≠ 0 ∧ isZero 0x3F800000#32 = false := by decide
theorem witness_special :
    isNaN someNaN = true ∧ isNaN 0x7F800001#32 = true ∧ isNaN 0xFFFFFFFF#32 = true ∧ isNaN 0x7F800000#32 = false ∧
    isInf 0x7F800000#32 = true ∧ isInf 0xFF800000#32 = true ∧ signOf 0x7F800000#32 ≠ signOf 0xFF800000#32 ∧
    isZero 0x80000000#32 = true ∧ isFinite 0x80000000#32 = true ∧ isZero 0x00000001#32 = false ∧
    isFinite 0x00000001#32 = true ∧ isNaN 0x00000001#32 = false ∧ isFinite 0x7F7FFFFF#32 = true ∧
    isFinite 0xFF7FFFFF#32 = true := by decide
/-- A step with a beat first, with PROC's turn first, and with nothing scheduled. -/
theorem witness_step_runs :
    decodeBeat 0x0200000000000000000000000000#112 = .ok .freset ∧
    (withTurn (.beat 0x0200000000000000000000000000#112) s0).script = .beat 0x0200000000000000000000000000#112 :: [] ∧
    (withTurn .proc s0).script = .proc :: [] ∧ s0.script = [] ∧ decodeStage s0.proc.stage = .ok .wait := by decide
theorem witness_malformed_beats :
    beatOp 0x0300411000000000000000000000#112 ≠ 0x01#8 ∧ beatOp 0x0300411000000000000000000000#112 ≠ 0x02#8 ∧
    beatOp 0x0102411000000000000000000000#112 = 0x01#8 ∧
    0x02 ≤ (beatCh 0x0102411000000000000000000000#112).toNat := by decide
theorem witness_host_turns :
    (withTurn (.clock 7#64) s0).script = .clock 7#64 :: [] ∧ (withTurn .idle s0).script = .idle :: [] ∧
    (withTurn .reset s0).script = .reset :: [] := by decide
theorem witness_build : cfgT.wf = true ∧ ({ cfgT with ringSize := 0 } : Cfg).wf = false := by decide
theorem witness_illegal_stage :
    (withProc fun q => { q with stage := 0x0F#8 }).proc.stage.toNat < 0x10 ∧
    0x1A < (withProc fun q => { q with stage := 0x1B#8 }).proc.stage.toNat ∧
    beatOp 0x0200000000000000000000000000#112 = 0x02#8 := by decide

/-- `s0` with the counts of the two channels. -/
def counts (a b : Count) : State := { s0 with acq := { s0.acq with acc0 := ⟨0#32, a⟩, acc1 := ⟨0#32, b⟩ } }

theorem chan_all (P : Chan → Prop) (h0 : P .ch0) (h1 : P .ch1) : ∀ c, P c
  | .ch0 => h0
  | .ch1 => h1

/-- SAMPLE with a full count, in the middle of a period, and at its end: D is 2. -/
theorem witness_sample :
    cfgT.wf = true ∧ (∀ c : Chan, ((counts 2#32 1#32).acq.chan c).n.toNat ≤ cfgT.decim) ∧
    ((counts 2#32 1#32).acq.chan .ch0).n.toNat = cfgT.decim ∧
    ((counts 1#32 1#32).acq.chan .ch0).n.toNat < cfgT.decim ∧
    ¬ (((counts 1#32 1#32).acq.chan .ch0).n.toNat + 1 = cfgT.decim ∧
      ((counts 1#32 1#32).acq.chan Chan.ch0.other).n.toNat = cfgT.decim) ∧
    ((counts 2#32 1#32).acq.chan .ch1).n.toNat + 1 = cfgT.decim ∧
    ((counts 2#32 1#32).acq.chan Chan.ch1.other).n.toNat = cfgT.decim :=
  ⟨by decide, chan_all _ (by decide) (by decide), by decide, by decide, by decide, by decide, by decide⟩

/-- The samples of V-DEC-1 in the order 1, 0, 0, 1. -/
def periodT : List (Chan × Word × Time) :=
  [(.ch1, 0x41200000#32, 0#64), (.ch0, 0x3F800000#32, 1#64), (.ch0, 0x40000000#32, 2#64), (.ch1, 0x41A00000#32, 3#64)]

theorem witness_period :
    s0.acq.acc0 = ⟨0#32, 0#32⟩ ∧ s0.acq.acc1 = ⟨0#32, 0#32⟩ ∧ (samplesOf .ch0 periodT).length = cfgT.decim ∧
    (samplesOf .ch1 periodT).length = cfgT.decim ∧
    (nextOf (feed s0 periodT)).map (fun t => (t.shared.hv0, t.shared.hv1)) =
      some (0x3FC00000#32, 0x41700000#32) := by decide

/-- The four settings of the two flags WAIT reads. -/
def flags (ready pend : Bool) : State := { s0 with shared := { s0.shared with ready := ready, frstPend := pend } }

theorem witness_wait :
    (flags true true).shared.frstPend = true ∧ (flags true false).shared.frstPend = false ∧
    (flags true false).shared.ready = true ∧ s0.shared.frstPend = false ∧ s0.shared.ready = false := by decide
theorem witness_blocked :
    stageOk s0.proc.stage = true ∧ s0.proc.cur.toNat < cfgT.ringSize ∧
    stageOk (withProc fun q => { q with stage := 0x15#8 }).proc.stage = true := by decide
/-- A NaN in the first word, in the second word, and at the input. -/
theorem witness_nan_stays :
    (∀ _i : Nat, isNaN someNaN = true) ∧
    (∀ (w : Delay) (x : Word), ∃ (y : Word) (w' : Delay), BiquadRule (fun _ => someNaN) hpT0 w x y w') ∧
    isNaN (Delay.mk someNaN 0#32).w1 = true ∧ isNaN (Delay.mk 0#32 someNaN).w2 = true :=
  ⟨fun _ => by decide,
    fun w x => ⟨biquadOut (fun _ => someNaN) hpT0 w x, biquadDelay (fun _ => someNaN) hpT0 w x _,
      _, _, _, _, _, _, rfl, rfl, rfl, rfl, rfl, rfl, rfl, rfl, rfl⟩,
    by decide, by decide⟩

/-- PROC at BQ0 with the power sample 1800.0. -/
def atBq0 : State := withProc fun q => { q with stage := 0x12#8, p := 0x44E10000#32 }

theorem witness_cascade : atBq0.script = [] ∧ atBq0.proc.stage = 0x12#8 := by decide
theorem witness_delay_lines :
    (nextOf (step atBq0)).map (fun t => decide (t.proc.delay .sec0 ≠ atBq0.proc.delay .sec0)) = some true ∧
    (nextOf (step { flags false true with
        proc := { s0.proc with d2 := ⟨0xC4E10000#32, 0#32⟩ } })).map (fun t => t.proc.d2) = some ⟨0#32, 0#32⟩ := by decide
/-- The first and the last slot, and the index after it. -/
theorem witness_push :
    cfgT.wf = true ∧ s0.proc.buf.wf = true ∧ s0.proc.cur.toNat < cfgT.ringSize ∧
    (withProc fun q => { q with cur := 3#32 }).proc.cur.toNat = cfgT.ringSize - 1 ∧
    cfgT.ringSize ≤ (withProc fun q => { q with cur := 4#32 }).proc.cur.toNat := by decide
theorem witness_base :
    s0.proc.full = false ∧ (withProc fun q => { q with full := true }).proc.full = true := by decide

/-- After four pushes under `CFG_T`. -/
def afterFour : State :=
  withProc fun q => { q with
    full := true, stage := 0x15#8, p := 0x42480000#32
    buf := [(0, 0x41200000#32), (1, 0x41A00000#32), (2, 0x41F00000#32), (3, 0x42200000#32)] }

theorem witness_ring_holds :
    RingHolds afterFour [0x41200000#32, 0x41A00000#32, 0x41F00000#32, 0x42200000#32] := by
  refine ⟨by decide, by decide, fun j v hj _ => ?_⟩
  rcases j with _ | _ | _ | _ | j
  · exact Option.some.inj hj
  · exact Option.some.inj hj
  · exact Option.some.inj hj
  · exact Option.some.inj hj
  · simp at hj

theorem witness_ring_steps :
    cfgT.wf = true ∧ afterFour.proc.buf.wf = true ∧ afterFour.nextTurn = .proc ∧ afterFour.proc.stage = 0x15#8 ∧
    cfgT.ringSize ≤ 4 ∧ (withTurn .reset afterFour).nextTurn = .reset ∧ (withTurn .idle afterFour).nextTurn = .idle ∧
    (nextOf (step afterFour)).map (fun t => (t.proc.buf.read 0, t.proc.buf.read 1, t.proc.cur)) =
      some (0x42480000#32, 0x41A00000#32, 1#32) := by decide

/-- DETECT with the filtered value `y`, the clock at `now` and the last event at 5200. -/
def atDetect (y : Word) (now : Time) : State :=
  { withProc (fun q => { q with stage := 0x16#8, y2 := y, last := 5200#64 }) with clk := now }

/-- Suppressed, exactly at the window, at the threshold, ON and OFF. -/
theorem witness_detect :
    (5699#64 - 5200#64).toNat < cfgT.debounceMs.toNat ∧ cfgT.debounceMs.toNat ≤ (5700#64 - 5200#64).toNat ∧
    fgt (fabs 0x42C80000#32) cfgT.eventThreshold = false ∧ fgt (fabs 0x42C80001#32) cfgT.eventThreshold = true ∧
    fgt 0x42C80001#32 0#32 = true ∧ fgt (fabs 0xC2C80001#32) cfgT.eventThreshold = true ∧
    fgt 0xC2C80001#32 0#32 = false := by decide
theorem witness_debounce :
    ∃ t1 t2, exec .detect (atDetect 0x43160000#32 5700#64) = .next t1 ∧ t1.proc.ev = true ∧
      (atDetect 0x43160000#32 6199#64).cfg = (atDetect 0x43160000#32 5700#64).cfg ∧
      { atDetect 0x43160000#32 6199#64 with proc := t1.proc }.proc.last = t1.proc.last ∧
      (5700#64).toNat ≤ (6199#64).toNat ∧
      exec .detect { atDetect 0x43160000#32 6199#64 with proc := t1.proc } = .next t2 ∧ t2.proc.ev = false :=
  ⟨_, _, rfl, by decide, rfl, rfl, by decide, rfl, by decide⟩
theorem witness_last_changes :
    ∃ t, step (atDetect 0x43160000#32 5700#64) = .next t ∧ (atDetect 0x43160000#32 5700#64).nextTurn ≠ .reset ∧
      t.proc.last ≠ (atDetect 0x43160000#32 5700#64).proc.last :=
  ⟨_, rfl, by decide, by decide⟩
theorem witness_full_stays :
    ∃ t, step afterFour = .next t ∧ afterFour.nextTurn ≠ .reset ∧ afterFour.proc.full = true ∧ t.proc.full = true :=
  ⟨_, rfl, by decide, by decide, by decide⟩
/-- 250.0 is in the first two ranges, 450.0 in none; a NaN. -/
theorem witness_classify :
    cfgT.devTab[0]? = some ⟨0x03#8, 0x42C80000#32, 0x43C80000#32, "Computer"⟩ ∧
    fle 0x42C80000#32 (fabs 0x437A0000#32) = true ∧ fle (fabs 0x437A0000#32) 0x43C80000#32 = true ∧
    (∀ e ∈ cfgT.devTab, ¬ (fle e.min (fabs 0x43E10000#32) = true ∧ fle (fabs 0x43E10000#32) e.max = true)) ∧
    isNaN someNaN = true := by decide
/-- The interval 0, the last tick of an interval and the tick before it. -/
theorem witness_status :
    (0#32).toNat < max (0#32).toNat 1 ∧ (3#32).toNat < max cfgT.statusInterval.toNat 1 ∧
    (3#32).toNat + 1 = cfgT.statusInterval.toNat ∧ cfgT.statusInterval ≠ 0#32 ∧
    (2#32).toNat + 1 ≠ cfgT.statusInterval.toNat := by decide

/-- PROC at EMIT, and at STATUS with a readout due. -/
def atEmit : State := withProc fun q => { q with stage := 0x18#8 }
def atStatus : State := withProc fun q => { q with stage := 0x1A#8, scnt := 3#32 }

theorem witness_traces :
    (∃ t, step atEmit = .next t ∧ atEmit.nextTurn ≠ .reset ∧ t.proc.evt ≠ atEmit.proc.evt) ∧
    (∃ t, step atStatus = .next t ∧ atStatus.nextTurn ≠ .reset ∧ t.proc.sts ≠ atStatus.proc.sts) :=
  ⟨⟨_, rfl, by decide, by decide⟩, ⟨_, rfl, by decide, by decide⟩⟩

theorem witness_core_inv : CoreInv s0 :=
  { cfgOk := by decide
    countLe := chan_all _ (by decide) (by decide)
    openPeriod := by decide
    curLt := by decide
    stageLegal := by decide
    scntLt := by decide
    powerSign := by decide
    bufWf := by decide
    bufWithin := by decide }

/-- A step from a state with the invariant: the whole tick's first state, with a pair waiting. -/
theorem witness_core_kept : CoreInv (flags true false) ∧ ∃ t, step (flags true false) = .next t :=
  ⟨{ cfgOk := by decide
     countLe := chan_all _ (by decide) (by decide)
     openPeriod := by decide
     curLt := by decide
     stageLegal := by decide
     scntLt := by decide
     powerSign := by decide
     bufWf := by decide
     bufWithin := by decide }, _, rfl⟩

/-- V-DEC-7's third sample: lockstep is lost. -/
theorem witness_lockstep :
    CoreInv (withTurn (.beat 0x01003F8000000000000000000000#112) (counts 2#32 0#32)) ∧
    step (withTurn (.beat 0x01003F8000000000000000000000#112) (counts 2#32 0#32)) = .fault .lockstepViolation :=
  ⟨{ cfgOk := by decide
     countLe := chan_all _ (by decide) (by decide)
     openPeriod := by decide
     curLt := by decide
     stageLegal := by decide
     scntLt := by decide
     powerSign := by decide
     bufWf := by decide
     bufWithin := by decide }, rfl⟩

/-- One record at 5200, settled, at DETECT; and an accepted OFF event at 5700 before its EMIT. -/
def oneEvent : EventRecord := ⟨5200#64, 0x44E10000#32, true, 5#8, 0x44E10000#32⟩
def settledAtDetect : State :=
  { atDetect 0xC3160000#32 5700#64 with proc := { (atDetect 0xC3160000#32 5700#64).proc with evt := [oneEvent] } }
def pendingOff : State :=
  { settledAtDetect with proc := { settledAtDetect.proc with
      stage := 0x18#8, ev := true, last := 5700#64, tnow := 5700#64, cat := 2#8 } }

theorem witness_event_inv : EventInv settledAtDetect ∧ ∃ t, step settledAtDetect = .next t :=
  ⟨{ catsOk := by decide
     stageLegal := by decide
     spaced := by decide
     records := by decide
     settled := fun _ _ => rfl
     pending := fun h => absurd h (by decide)
     onPath := fun h => absurd h (by decide)
     emitPath := fun h => absurd h (by decide) }, _, rfl⟩
theorem witness_event_inv_pending : EventInv pendingOff ∧ ∃ t, step pendingOff = .next t :=
  ⟨{ catsOk := by decide
     stageLegal := by decide
     spaced := by decide
     records := by decide
     settled := fun _ h => absurd rfl h
     pending := fun _ => ⟨rfl, rfl, fun r h => by rw [← Option.some.inj h]; decide⟩
     onPath := fun h => absurd h (by decide)
     emitPath := fun _ => by decide }, _, rfl⟩
theorem witness_config :
    (∃ t, step s0 = .next t) ∧ (∃ t, step (withTurn (.clock 7#64) s0) = .next t ∧ t.clk = 7#64) ∧ s0.nextTurn = .proc :=
  ⟨⟨_, rfl⟩, ⟨_, rfl, rfl⟩, rfl⟩
theorem witness_agents :
    (∃ t, exec (.sample 0x00#8 0x40400000#32 0#64) s0 = .next t) ∧ Instr.format (.sample 0x00#8 0x40400000#32 0#64) = .h ∧
    (∃ t, exec .pwr s0 = .next t) ∧ Instr.format .pwr = .s :=
  ⟨⟨_, rfl⟩, rfl, ⟨_, rfl⟩, rfl⟩
theorem witness_commute :
    (∃ t, exec (.sample 0x01#8 0x40400000#32 0#64) (counts 2#32 1#32) = .next t) ∧
    (∃ t, exec .bpush (counts 2#32 1#32) = .next t) ∧ Instr.bpush ≠ .wait :=
  ⟨⟨_, rfl⟩, ⟨_, rfl⟩, by decide⟩
theorem witness_ready :
    (∃ t, step (withTurn (.beat 0x01013F8000000000000000000000#112) (counts 2#32 1#32)) = .next t ∧
      t.shared.ready = true) ∧
    (∃ t, step (flags true false) = .next t ∧ t.shared.ready = false) ∧ (flags true false).nextTurn ≠ .reset :=
  ⟨⟨_, rfl, rfl⟩, ⟨_, rfl, rfl⟩, by decide⟩

/-- Two states that differ in a NaN pattern and in the supply of free values. -/
def nanA : State := withProc fun q => { q with stage := 0x16#8, y2 := someNaN }
def nanB : State := withProc fun q => { q with stage := 0x16#8, y2 := 0xFFFFFFFF#32, draws := 9 }

theorem same_refl (a : Word) : SameNum a a := .inl rfl

theorem witness_same_up_to_nan : SameUpToNaN nanA nanB ∧ nanA.proc.buf.wf = true ∧ nanB.proc.buf.wf = true :=
  ⟨{ cfg := rfl, clk := rfl, script := rfl
     acc := chan_all _ ⟨same_refl _, rfl⟩ ⟨same_refl _, rfl⟩
     pair := chan_all _ (same_refl _) (same_refl _)
     ready := rfl, pend := rfl, stage := rfl
     lv0 := same_refl _, lv1 := same_refl _, p := same_refl _
     y := fun k => by
       cases k
       · exact same_refl _
       · exact same_refl _
       · exact .inr ⟨by decide, by decide⟩
     delay := fun k => by cases k <;> exact ⟨same_refl _, same_refl _⟩
     buf := fun _ => same_refl _
     cur := rfl, full := rfl, last := rfl, tnow := rfl, ev := rfl, dir := rfl, cat := rfl, bvalid := rfl
     bval := same_refl _
     scnt := rfl, evt := .nil, sts := .nil }, by decide, by decide⟩
theorem witness_whole_tick :
    (flags true false).script = [] ∧ (flags true false).proc.stage = 0x10#8 ∧ (flags true false).shared.ready = true ∧
    (flags true false).shared.frstPend = false := by decide

end Sys2Proof.Tests
end

/-!
PROOFS. The choice of NaN patterns steers nothing (00_scope.md R13): the four operations, the comparisons and the memory
respect sameness up to NaN patterns, and then so does each of the thirteen operations and the step.
-/

namespace Sys2Proof.Machine

/-! ### Numbers that are the same up to NaN patterns -/

theorem SameNum.refl (a : Word) : SameNum a a := .inl rfl

theorem SameNum.of_isNaN {a b : Word} (ha : isNaN a = true) (hb : isNaN b = true) : SameNum a b := .inr ⟨ha, hb⟩

theorem SameNum.isNaN_eq {a b : Word} (h : SameNum a b) : isNaN a = isNaN b := by
  obtain rfl | ⟨ha, hb⟩ := h
  · rfl
  · rw [ha, hb]

theorem SameNum.fabs {a b : Word} (h : SameNum a b) : SameNum (fabs a) (fabs b) := by
  obtain rfl | ⟨ha, hb⟩ := h
  · exact .refl _
  · exact .of_isNaN (by rw [isNaN_fabs, ha]) (by rw [isNaN_fabs, hb])

/-- What R13 says of an arithmetic operation: a NaN operand gives the drawn NaN, and else the operands alone decide
whether the result is the drawn NaN or a fixed pattern. -/
structure DrawsNaN (f : Word → Word → Word → Word) : Prop where
  propagates : ∀ nan a b, isNaN a = true ∨ isNaN b = true → f nan a b = nan
  decided    : ∀ a b, (∀ nan, f nan a b = nan) ∨ ∃ r, ∀ nan, f nan a b = r

/-- An operation that draws its NaNs answers same results for same operands, whatever it draws. -/
theorem DrawsNaN.sameNum {f : Word → Word → Word → Word} (hf : DrawsNaN f) {nan nan' a a' b b' : Word}
    (hn : isNaN nan = true) (hn' : isNaN nan' = true) (ha : SameNum a a') (hb : SameNum b b') :
    SameNum (f nan a b) (f nan' a' b') := by
  by_cases h : isNaN a = true ∨ isNaN b = true
  · have h' : isNaN a' = true ∨ isNaN b' = true := by rwa [← ha.isNaN_eq, ← hb.isNaN_eq]
    rw [hf.propagates nan a b h, hf.propagates nan' a' b' h']
    exact .of_isNaN hn hn'
  · obtain rfl : a = a' := ha.resolve_right fun hh => h (.inl hh.1)
    obtain rfl : b = b' := hb.resolve_right fun hh => h (.inr hh.1)
    obtain hd | ⟨r, hr⟩ := hf.decided a b
    · rw [hd nan, hd nan']
      exact .of_isNaN hn hn'
    · rw [hr nan, hr nan']
      exact .refl r

theorem fadd_drawsNaN : DrawsNaN fadd where
  propagates nan a b h := by
    unfold fadd
    rw [if_pos (by simpa using h)]
  decided a b := by
    unfold fadd
    split_ifs
    case pos | pos => exact .inl fun _ => rfl
    all_goals exact .inr ⟨_, fun _ => rfl⟩

theorem fsub_drawsNaN : DrawsNaN fsub where
  propagates nan a b h := by
    refine fadd_drawsNaN.propagates nan a _ (h.imp_right fun hb => ?_)
    rwa [if_pos hb]
  decided a b := fadd_drawsNaN.decided a _

theorem fmul_drawsNaN : DrawsNaN fmul where
  propagates nan a b h := by
    unfold fmul
    rw [if_pos (by simpa using h)]
  decided a b := by
    unfold fmul
    split_ifs
    case pos | pos => exact .inl fun _ => rfl
    all_goals exact .inr ⟨_, fun _ => rfl⟩

theorem fdiv_drawsNaN : DrawsNaN fdiv where
  propagates nan a b h := by
    unfold fdiv
    rw [if_pos (by simpa using h)]
  decided a b := by
    unfold fdiv
    split_ifs
    case pos | pos => exact .inl fun _ => rfl
    all_goals exact .inr ⟨_, fun _ => rfl⟩

/-! ### Comparisons, sums of slots and the memory -/

theorem SameNum.fgt_eq {a a' b b' : Word} (ha : SameNum a a') (hb : SameNum b b') : fgt a b = fgt a' b' := by
  obtain rfl | ⟨ha, ha'⟩ := ha
  · obtain rfl | ⟨hb, hb'⟩ := hb
    · rfl
    · simp [fgt, hb, hb']
  · simp [fgt, ha, ha']

theorem SameNum.fle_eq {a a' b b' : Word} (ha : SameNum a a') (hb : SameNum b b') : fle a b = fle a' b' := by
  obtain rfl | ⟨ha, ha'⟩ := ha
  · obtain rfl | ⟨hb, hb'⟩ := hb
    · rfl
    · simp [fle, hb, hb']
  · simp [fle, ha, ha']

theorem SameNum.directionOn_eq {y y' : Word} (h : SameNum y y') : directionOn y = directionOn y' :=
  h.fgt_eq (.refl _)

theorem SameNum.magnitudePasses_eq (c : Cfg) {y y' : Word} (h : SameNum y y') :
    magnitudePasses c y = magnitudePasses c y' :=
  h.fabs.fgt_eq (.refl _)

theorem SameNum.firstMatch_eq {m m' : Word} (h : SameNum m m') (tab : List DevRange) :
    firstMatch m tab = firstMatch m' tab := by
  induction tab with
  | nil => rfl
  | cons e rest ih =>
    have hin : inRange m e = inRange m' e := by
      unfold inRange
      rw [SameNum.fle_eq (.refl e.min) h, h.fle_eq (.refl e.max)]
    simp only [firstMatch, hin, ih]

theorem SameNum.classifyValue_eq (c : Cfg) {y y' : Word} (h : SameNum y y') :
    classifyValue c y = classifyValue c y' := by
  unfold classifyValue
  rw [h.fabs.firstMatch_eq, h.fabs.fgt_eq (.refl c.otherFloor)]

/-- A write of the same number at the same index keeps two memories in canonical form the same. -/
theorem sameNum_read_write {m m' : Memory} {v v' : Word} (hm : m.wf = true) (hm' : m'.wf = true)
    (h : ∀ k, SameNum (m.read k) (m'.read k)) (hv : SameNum v v') (i k : Nat) :
    SameNum ((m.write i v).read k) ((m'.write i v').read k) := by
  rw [Memory_read_write m 0 i k v hm, Memory_read_write m' 0 i k v' hm']
  split
  · exact hv
  · exact h k

theorem sameNum_sumSlots {nan nan' : Nat → Word} (hn : ∀ k, isNaN (nan k) = true) (hn' : ∀ k, isNaN (nan' k) = true)
    {m m' : Memory} (h : ∀ k, SameNum (m.read k) (m'.read k)) (k : Nat) :
    SameNum (sumSlots nan m k) (sumSlots nan' m' k) := by
  induction k with
  | zero => exact .refl _
  | succ k ih => exact fadd_drawsNaN.sameNum (hn k) (hn' k) ih (h k)

theorem sameNum_ringMean {nan nan' : Nat → Word} (hn : ∀ k, isNaN (nan k) = true) (hn' : ∀ k, isNaN (nan' k) = true)
    {m m' : Memory} (h : ∀ k, SameNum (m.read k) (m'.read k)) (k : Nat) :
    SameNum (ringMean nan m k) (ringMean nan' m' k) :=
  fdiv_drawsNaN.sameNum (hn k) (hn' k) (sameNum_sumSlots hn hn' h k) (.refl _)

theorem sameNum_powerOf {n n' u u' v v' w w' : Word} (hn : isNaN n = true) (hn' : isNaN n' = true)
    (hu : isNaN u = true) (hu' : isNaN u' = true) (scale : Word) (hv : SameNum v v') (hw : SameNum w w') :
    SameNum (powerOf n u scale v w) (powerOf n' u' scale v' w') :=
  (fmul_drawsNaN.sameNum hu hu' (fmul_drawsNaN.sameNum hn hn' hv hw) (.refl scale)).fabs

section Biquad

variable {nan nan' : Nat → Word} (hn : ∀ k, isNaN (nan k) = true) (hn' : ∀ k, isNaN (nan' k) = true) (c : Coefs)
  {w w' : Delay} (hw : SameDelay w w') {x x' : Word} (hx : SameNum x x')
include hn hn' hw hx

theorem sameNum_biquadOut : SameNum (biquadOut nan c w x) (biquadOut nan' c w' x') :=
  fadd_drawsNaN.sameNum (hn 1) (hn' 1) (fmul_drawsNaN.sameNum (hn 0) (hn' 0) (.refl c.b0) hx) hw.1

theorem sameDelay_biquadDelay {y y' : Word} (hy : SameNum y y') :
    SameDelay (biquadDelay nan c w x y) (biquadDelay nan' c w' x' y') := by
  have mulX : ∀ i b, SameNum (fmul (nan i) b x) (fmul (nan' i) b x') := fun i b =>
    fmul_drawsNaN.sameNum (hn i) (hn' i) (.refl b) hx
  have mulY : ∀ i b, SameNum (fmul (nan i) b y) (fmul (nan' i) b y') := fun i b =>
    fmul_drawsNaN.sameNum (hn i) (hn' i) (.refl b) hy
  refine ⟨fadd_drawsNaN.sameNum (hn 5) (hn' 5) ?_ hw.2, ?_⟩
  · exact fsub_drawsNaN.sameNum (hn 4) (hn' 4) (mulX 2 c.b1) (mulY 3 c.a1)
  · exact fsub_drawsNaN.sameNum (hn 8) (hn' 8) (mulX 6 c.b2) (mulY 7 c.a2)

end Biquad

/-! ### States that are the same up to NaN patterns -/

theorem Chan_forall {P : Chan → Prop} (h0 : P .ch0) (h1 : P .ch1) : ∀ c, P c
  | .ch0 => h0
  | .ch1 => h1

theorem Sec_forall {P : Sec → Prop} (h0 : P .sec0) (h1 : P .sec1) (h2 : P .sec2) : ∀ k, P k
  | .sec0 => h0
  | .sec1 => h1
  | .sec2 => h2

theorem SameAcc.refl (a : ChanAcc) : SameAcc a a := ⟨.refl _, rfl⟩

theorem SameDelay.refl (d : Delay) : SameDelay d d := ⟨.refl _, .refl _⟩

/-- Appending same records to same traces. -/
theorem forall₂_append_singleton {α : Type} {R : α → α → Prop} {l l' : List α} {r r' : α} (h : List.Forall₂ R l l')
    (hr : R r r') : List.Forall₂ R (l ++ [r]) (l' ++ [r']) :=
  List.rel_append h (.cons hr .nil)

section Operations

variable {s t : State} (h : SameUpToNaN s t)
include h

theorem SameUpToNaN.nextTurn_eq : s.nextTurn = t.nextTurn := by
  unfold State.nextTurn
  rw [h.script]

theorem SameUpToNaN.popTurn : SameUpToNaN s.popTurn t.popTurn :=
  { h with script := congrArg List.tail h.script }

theorem SameUpToNaN.setClock (now : Time) : SameUpToNaN (s.setClock now) (t.setClock now) :=
  { h with clk := rfl }

/-- A reset leaves the configuration, the clock and the schedule, and every other item at its reset value. -/
theorem SameUpToNaN.resetCore : SameUpToNaN s.resetCore t.resetCore :=
  { cfg := h.cfg, clk := h.clk, script := h.script
    acc := Chan_forall (.refl _) (.refl _), pair := fun _ => .refl _
    ready := rfl, pend := rfl, stage := rfl, lv0 := .refl _, lv1 := .refl _, p := .refl _
    y := Sec_forall (.refl _) (.refl _) (.refl _), delay := Sec_forall (.refl _) (.refl _) (.refl _)
    buf := fun _ => .refl _, cur := rfl, full := rfl, last := rfl, tnow := rfl, ev := rfl, dir := rfl, cat := rfl
    bvalid := rfl, bval := .refl _, scnt := rfl, evt := .nil, sts := .nil }

/-- The filtered value, which DETECT, CLASSIFY, EMIT and STATUS read. -/
theorem SameUpToNaN.filtered : SameNum s.proc.y2 t.proc.y2 := h.y .sec2

theorem SameUpToNaN.countFull_eq (c : Chan) : countFull s.cfg (s.acq.chan c) = countFull t.cfg (t.acq.chan c) := by
  unfold countFull
  rw [h.cfg, (h.acc c).2]

theorem SameUpToNaN.periodComplete_eq : periodComplete s.cfg s.acq = periodComplete t.cfg t.acq := by
  unfold periodComplete
  exact congrArg₂ _ (h.countFull_eq .ch0) (h.countFull_eq .ch1)

theorem SameUpToNaN.detects_eq : detects s.cfg s.clk s.proc = detects t.cfg t.clk t.proc := by
  unfold detects
  rw [h.cfg, h.clk, h.last, h.filtered.magnitudePasses_eq t.cfg]

theorem SameUpToNaN.eventOf : SameEvent (eventOf s.proc) (eventOf t.proc) :=
  ⟨h.tnow, h.filtered, h.dir, h.cat, h.p⟩

theorem SameUpToNaN.statusOf : SameStatus (statusOf s.proc) (statusOf t.proc) :=
  ⟨h.p, h.bvalid, h.bval, h.filtered⟩

theorem SameUpToNaN.sectionInput (k : Sec) : SameNum (s.proc.sectionInput k) (t.proc.sectionInput k) :=
  Sec_forall (P := fun k => SameNum (s.proc.sectionInput k) (t.proc.sectionInput k)) h.p (h.y .sec0) (h.y .sec1) k

theorem SameUpToNaN.channelMean {nan nan' : Word} (hn : isNaN nan = true) (hn' : isNaN nan' = true) (c : Chan) :
    SameNum (channelMean s.cfg nan (s.acq.chan c)) (channelMean t.cfg nan' (t.acq.chan c)) := by
  unfold Machine.channelMean
  rw [h.cfg]
  exact fdiv_drawsNaN.sameNum hn hn' (h.acc c).1 (.refl _)

/-- The pair emission, with any draws. -/
theorem SameUpToNaN.emitPair {n n' m m' : Word} (hn : isNaN n = true) (hn' : isNaN n' = true) (hm : isNaN m = true)
    (hm' : isNaN m' = true) : SameUpToNaN (emitPair s n m) (emitPair t n' m') :=
  { h with
    acc := Chan_forall (.refl _) (.refl _)
    pair := Chan_forall (h.channelMean hn hn' .ch0) (h.channelMean hm hm' .ch1)
    ready := rfl }

/-- One sample added to a channel's accumulator, with any draws. -/
theorem SameUpToNaN.addSample {nan nan' : Word} (hn : isNaN nan = true) (hn' : isNaN nan' = true) (c : Chan)
    (raw : Word) (d d' : Nat) :
    SameUpToNaN (s.setAcq { s.acq.setChan c ((s.acq.chan c).add nan raw) with draws := d })
      (t.setAcq { t.acq.setChan c ((t.acq.chan c).add nan' raw) with draws := d' }) := by
  have hadd : SameAcc ((s.acq.chan c).add nan raw) ((t.acq.chan c).add nan' raw) :=
    ⟨fadd_drawsNaN.sameNum hn hn' (h.acc c).1 (.refl raw), congrArg (· + 1#32) (h.acc c).2⟩
  cases c with
  | ch0 => exact { h with acc := Chan_forall hadd (h.acc .ch1) }
  | ch1 => exact { h with acc := Chan_forall (h.acc .ch0) hadd }

theorem SameUpToNaN.acceptSample (c : Chan) (raw : Word) :
    SameUpToNaN (acceptSample c raw s) (acceptSample c raw t) := by
  have hadd := h.addSample (isNaN_acqNan s 0) (isNaN_acqNan t 0) c raw (s.acq.draws + 3) (t.acq.draws + 3)
  have hdone := hadd.periodComplete_eq
  unfold Machine.acceptSample
  dsimp only
  split
  next hc =>
    rw [if_pos (hdone ▸ hc)]
    exact hadd.emitPair (isNaN_acqNan s 1) (isNaN_acqNan t 1) (isNaN_acqNan s 2) (isNaN_acqNan t 2)
  next hc =>
    rw [if_neg (hdone ▸ hc)]
    exact hadd

/-- A section's output and delay line, the stage and the draws written. -/
theorem SameUpToNaN.setSection (k : Sec) (next : Code8) {y y' : Word} (hy : SameNum y y') {d d' : Delay}
    (hd : SameDelay d d') (n n' : Nat) :
    SameUpToNaN (s.setProc { (s.proc.setOutput k y).setDelay k d with stage := next, draws := n })
      (t.setProc { (t.proc.setOutput k y').setDelay k d' with stage := next, draws := n' }) := by
  cases k with
  | sec0 =>
    exact { h with
      stage := rfl, y := Sec_forall hy (h.y .sec1) (h.y .sec2), delay := Sec_forall hd (h.delay .sec1) (h.delay .sec2) }
  | sec1 =>
    exact { h with
      stage := rfl, y := Sec_forall (h.y .sec0) hy (h.y .sec2), delay := Sec_forall (h.delay .sec0) hd (h.delay .sec2) }
  | sec2 =>
    exact { h with
      stage := rfl, y := Sec_forall (h.y .sec0) (h.y .sec1) hy, delay := Sec_forall (h.delay .sec0) (h.delay .sec1) hd }

theorem SameUpToNaN.runSection (k : Sec) (next : Code8) : SameUpToNaN (runSection k next s) (runSection k next t) := by
  have hout := sameNum_biquadOut (isNaN_procNan s) (isNaN_procNan t) (sectionCoefs t.cfg k) (h.delay k)
    (h.sectionInput k)
  have hdel := sameDelay_biquadDelay (isNaN_procNan s) (isNaN_procNan t) (sectionCoefs t.cfg k) (h.delay k)
    (h.sectionInput k) hout
  unfold Machine.runSection
  rw [h.cfg]
  exact h.setSection k next hout hdel _ _

theorem SameUpToNaN.filterReset : SameUpToNaN (filterReset s) (filterReset t) :=
  { h with pend := rfl, stage := rfl, delay := Sec_forall (.refl _) (.refl _) (.refl _) }

theorem SameUpToNaN.latchPair : SameUpToNaN (latchPair s) (latchPair t) :=
  { h with ready := rfl, stage := rfl, lv0 := h.pair .ch0, lv1 := h.pair .ch1 }

/-! ### The thirteen operations -/

theorem SameUpToNaN.execSample (ch : Code8) (raw : Word) (ts : Time) :
    SameOutcome (execSample ch raw ts s) (execSample ch raw ts t) := by
  unfold Machine.execSample
  cases channelOf ch with
  | none => exact h
  | some c =>
    dsimp only
    rw [h.countFull_eq c]
    split
    · exact rfl
    · exact h.acceptSample c raw

theorem SameUpToNaN.execFreset : SameOutcome (execFreset s) (execFreset t) :=
  show SameUpToNaN _ _ from { h with pend := rfl }

theorem SameUpToNaN.execWait : SameOutcome (execWait s) (execWait t) := by
  unfold Machine.execWait
  rw [h.pend, h.ready]
  split
  · exact h.filterReset
  · split
    · exact h.latchPair
    · exact h

theorem SameUpToNaN.execPwr : SameOutcome (execPwr s) (execPwr t) := by
  have hp := sameNum_powerOf (isNaN_procNan s 0) (isNaN_procNan t 0) (isNaN_procNan s 1) (isNaN_procNan t 1)
    t.cfg.scale h.lv0 h.lv1
  unfold Machine.execPwr
  rw [h.cfg]
  exact show SameUpToNaN _ _ from { h with p := hp, stage := rfl }

theorem SameUpToNaN.execBpush (hs : s.proc.buf.wf = true) (ht : t.proc.buf.wf = true) :
    SameOutcome (execBpush s) (execBpush t) := by
  have hok : cursorOk s.cfg s.proc = cursorOk t.cfg t.proc := by unfold cursorOk; rw [h.cfg, h.cur]
  have hlast : cursorLast s.cfg s.proc = cursorLast t.cfg t.proc := by unfold cursorLast; rw [h.cfg, h.cur]
  unfold Machine.execBpush
  rw [hok, hlast, h.cur, h.full]
  split
  · exact show SameUpToNaN _ _ from
      { h with buf := sameNum_read_write hs ht h.buf h.p _, cur := rfl, full := rfl, stage := rfl }
  · exact rfl

theorem SameUpToNaN.execDetect : SameOutcome (execDetect s) (execDetect t) := by
  unfold Machine.execDetect detectProc
  rw [h.detects_eq, h.filtered.directionOn_eq, h.clk, h.last, h.dir, h.cat]
  exact show SameUpToNaN _ _ from
    { h with tnow := rfl, ev := rfl, last := rfl, dir := rfl, cat := rfl, stage := rfl }

theorem SameUpToNaN.execClassify : SameOutcome (execClassify s) (execClassify t) := by
  unfold Machine.execClassify
  rw [h.cfg, h.filtered.classifyValue_eq t.cfg]
  exact show SameUpToNaN _ _ from { h with cat := rfl, stage := rfl }

theorem SameUpToNaN.execEmit : SameOutcome (execEmit s) (execEmit t) :=
  show SameUpToNaN _ _ from { h with evt := forall₂_append_singleton h.evt h.eventOf, stage := rfl }

theorem SameUpToNaN.execBase : SameOutcome (execBase s) (execBase t) := by
  have hmean := sameNum_ringMean (isNaN_procNan s) (isNaN_procNan t) h.buf t.cfg.ringSize
  have hval : SameNum (if t.proc.full then ringMean s.procNan s.proc.buf t.cfg.ringSize else posZero)
      (if t.proc.full then ringMean t.procNan t.proc.buf t.cfg.ringSize else posZero) := by
    split
    · exact hmean
    · exact .refl _
  unfold Machine.execBase
  rw [h.cfg, h.full]
  exact show SameUpToNaN _ _ from { h with bvalid := rfl, bval := hval, stage := rfl }

theorem SameUpToNaN.execStatus : SameOutcome (execStatus s) (execStatus t) := by
  have hdue : statusDue s.cfg s.proc = statusDue t.cfg t.proc := by unfold statusDue; rw [h.cfg, h.scnt]
  have hsts : List.Forall₂ SameStatus
      (if statusDue t.cfg t.proc then s.proc.sts ++ [Machine.statusOf s.proc] else s.proc.sts)
      (if statusDue t.cfg t.proc then t.proc.sts ++ [Machine.statusOf t.proc] else t.proc.sts) := by
    split
    · exact forall₂_append_singleton h.sts h.statusOf
    · exact h.sts
  unfold Machine.execStatus
  rw [hdue, h.cfg, h.scnt]
  exact show SameUpToNaN _ _ from { h with sts := hsts, scnt := rfl, stage := rfl }

/-- Each operation respects sameness up to NaN patterns. -/
theorem SameUpToNaN.exec (hs : s.proc.buf.wf = true) (ht : t.proc.buf.wf = true) (i : Instr) :
    SameOutcome (exec i s) (exec i t) := by
  cases i with
  | sample ch raw ts => exact h.execSample ch raw ts
  | freset => exact h.execFreset
  | wait => exact h.execWait
  | pwr => exact h.execPwr
  | bq0 => exact h.runSection .sec0 0x13#8
  | bq1 => exact h.runSection .sec1 0x14#8
  | bq2 => exact h.runSection .sec2 0x15#8
  | bpush => exact h.execBpush hs ht
  | detect => exact h.execDetect
  | classify => exact h.execClassify
  | emit => exact h.execEmit
  | base => exact h.execBase
  | status => exact h.execStatus

theorem SameUpToNaN.runCode (hs : s.proc.buf.wf = true) (ht : t.proc.buf.wf = true) (c : Code) :
    SameOutcome (runCode c s) (runCode c t) := by
  cases hd : decode c with
  | ok i =>
    rw [runCode_ok c i s hd, runCode_ok c i t hd]
    exact h.exec hs ht i
  | error e =>
    rw [runCode_error c e s hd, runCode_error c e t hd]
    exact h

theorem SameUpToNaN.takeTurn (hs : s.proc.buf.wf = true) (ht : t.proc.buf.wf = true) (u : Turn) :
    SameOutcome (takeTurn u s) (takeTurn u t) := by
  cases u with
  | beat cmd => exact h.runCode hs ht (.beat cmd)
  | proc =>
    unfold Machine.takeTurn
    rw [h.stage]
    exact h.runCode hs ht (.stage t.proc.stage)
  | clock now => exact h.setClock now
  | reset => exact h.resetCore
  | idle => exact h

end Operations

/-- Settles O53: the turn taken is the same on both sides, and every turn respects sameness up to NaN patterns. -/
theorem naNPatternsNeverSteerControl : Obligations.NaNPatternsNeverSteerControl := by
  intro s t hs ht h
  unfold step
  rw [h.nextTurn_eq]
  exact h.popTurn.takeTurn hs ht t.nextTurn

end Sys2Proof.Machine

/-!
PROOFS. Rounding (00_scope.md R10): the two neighbouring magnitude patterns that bracket an exact result, and which of
them `roundMag` answers.
-/

namespace Sys2Proof.Machine

/-! ### The two patterns around an exact result -/

/-- `num / den` units lie between the values of the magnitude patterns `lo` and `lo + 1`: `r` above the first, of a
distance `gap` between them, both taken times `den`. -/
structure Bracket (num den lo r gap : Nat) : Prop where
  den_pos : 0 < den
  above   : den * magUnits lo + r = num
  succ    : den * magUnits (lo + 1) = den * magUnits lo + gap
  lt_gap  : r < gap

/-- `m` is the nearer of the two patterns of a bracket, at the midpoint the even one. -/
def NearerEven (lo r gap m : Nat) : Prop :=
  (m = lo ∧ 2 * r ≤ gap ∧ (2 * r = gap → lo % 2 = 0)) ∨
  (m = lo + 1 ∧ gap ≤ 2 * r ∧ (2 * r = gap → lo % 2 = 1))

/-- The pattern put together from an exponent step and a significand stands for that significand, shifted; a significand
of `2^24` has carried into the exponent. -/
theorem magUnits_significand (s q : Nat) (hlo : s = 0 ∨ 2 ^ 23 ≤ q) (hhi : q ≤ 2 ^ 24) :
    magUnits (s * 2 ^ 23 + q) = q * 2 ^ s := by
  unfold magUnits
  by_cases hcarry : q = 2 ^ 24
  · rw [if_neg (by omega), show (s * 2 ^ 23 + q) / 2 ^ 23 - 1 = s + 1 by omega,
      show (s * 2 ^ 23 + q) % 2 ^ 23 = 0 by omega, hcarry, Nat.pow_succ 2 s]
    ring
  · by_cases hsub : q < 2 ^ 23
    · obtain rfl : s = 0 := by omega
      rw [if_pos (by omega)]
      omega
    · rw [if_neg (by omega), show (s * 2 ^ 23 + q) / 2 ^ 23 - 1 = s by omega,
        show 2 ^ 23 + (s * 2 ^ 23 + q) % 2 ^ 23 = q by omega]

/-- Cut at its exponent step, a number of whole units has at most 24 bits, and exactly 24 past the subnormals. -/
theorem roundShift_spec (k : Nat) :
    k / 2 ^ roundShift k < 2 ^ 24 ∧ (roundShift k = 0 ∨ 2 ^ 23 ≤ k / 2 ^ roundShift k) := by
  unfold roundShift
  split
  next h => simpa using h
  next h =>
    have hk : k ≠ 0 := by omega
    have hlog : 24 ≤ Nat.log2 k := (Nat.le_log2 hk).mpr (by omega)
    refine ⟨?_, .inr ?_⟩
    · rw [Nat.div_lt_iff_lt_mul (Nat.two_pow_pos _), ← Nat.pow_add, show 24 + (Nat.log2 k - 23) = Nat.log2 k + 1 by omega]
      exact Nat.lt_log2_self
    · rw [Nat.le_div_iff_mul_le (Nat.two_pow_pos _), ← Nat.pow_add, show 23 + (Nat.log2 k - 23) = Nat.log2 k by omega]
      exact Nat.log2_self_le hk

/-- The distance of the two neighbouring patterns around `num / den` units, times `den`, where the exponent has no
bound. -/
def floorGap (num den : Nat) : Nat := den * 2 ^ roundShift (num / den)

/-- The lower of the two, the greatest magnitude pattern whose value is not above `num / den` units. -/
def floorMag (num den : Nat) : Nat := roundShift (num / den) * 2 ^ 23 + num / floorGap num den

section Floor

variable (num den : Nat)

theorem floorMag_succ :
    roundShift (num / den) * 2 ^ 23 + (num / floorGap num den + 1) = floorMag num den + 1 :=
  (Nat.add_assoc _ _ _).symm

theorem floorGap_pos (hden : 0 < den) : 0 < floorGap num den := Nat.mul_pos hden (Nat.two_pow_pos _)

theorem floorSignificand_lt_and_ge :
    num / floorGap num den < 2 ^ 24 ∧ (roundShift (num / den) = 0 ∨ 2 ^ 23 ≤ num / floorGap num den) := by
  unfold floorGap
  rw [← Nat.div_div_eq_div_mul]
  exact roundShift_spec (num / den)

/-- The value of `floorMag` and how far `num / den` lies above it. -/
theorem den_mul_magUnits_floorMag : den * magUnits (floorMag num den) + num % floorGap num den = num := by
  obtain ⟨hlt, hge⟩ := floorSignificand_lt_and_ge num den
  have hm : magUnits (floorMag num den) = num / floorGap num den * 2 ^ roundShift (num / den) :=
    magUnits_significand _ _ hge (by omega)
  calc den * magUnits (floorMag num den) + num % floorGap num den
      = floorGap num den * (num / floorGap num den) + num % floorGap num den := by rw [hm]; unfold floorGap; ring
    _ = num := Nat.div_add_mod num _

/-- The value of the pattern after `floorMag`. -/
theorem den_mul_magUnits_floorMag_succ :
    den * magUnits (floorMag num den + 1) = den * magUnits (floorMag num den) + floorGap num den := by
  obtain ⟨hlt, hge⟩ := floorSignificand_lt_and_ge num den
  have hm : magUnits (floorMag num den) = num / floorGap num den * 2 ^ roundShift (num / den) :=
    magUnits_significand _ _ hge (by omega)
  rw [hm, ← floorMag_succ, magUnits_significand _ _ (by omega) (by omega)]
  unfold floorGap
  ring

theorem bracket_floorMag (hden : 0 < den) :
    Bracket num den (floorMag num den) (num % floorGap num den) (floorGap num den) where
  den_pos := hden
  above := den_mul_magUnits_floorMag num den
  succ := den_mul_magUnits_floorMag_succ num den
  lt_gap := Nat.mod_lt _ (floorGap_pos num den hden)

theorem roundMag_cases :
    ∃ m, roundMag num den = min m infMag ∧ NearerEven (floorMag num den) (num % floorGap num den) (floorGap num den) m := by
  have hpar : floorMag num den % 2 = num / floorGap num den % 2 := by
    unfold floorMag
    omega
  refine ⟨roundShift (num / den) * 2 ^ 23 + nearestEven num (floorGap num den), rfl, ?_⟩
  unfold nearestEven NearerEven
  rw [hpar]
  split
  next hup => exact .inr ⟨floorMag_succ num den, by omega, by omega⟩
  next hdown => exact .inl ⟨rfl, by omega, by omega⟩

end Floor

/-! ### The nearer pattern is the rounded result -/

theorem Bracket.nearestFinite {num den lo r gap m : Nat} (hb : Bracket num den lo r gap)
    (hm : NearerEven lo r gap m) : NearestFinite num den m := by
  obtain ⟨hden, hnum, hgap, hr⟩ := hb
  intro k _
  have mono : ∀ {i j}, i < j → den * magUnits i < den * magUnits j := fun hij =>
    Nat.mul_lt_mul_of_pos_left (magUnits_strictMono hij) hden
  have below : k < lo → den * magUnits k < den * magUnits lo := mono
  have above : lo + 1 < k → den * magUnits (lo + 1) < den * magUnits k := mono
  have hk : k < lo ∨ k = lo ∨ k = lo + 1 ∨ lo + 1 < k := by omega
  unfold natDist
  obtain ⟨rfl, hle, htie⟩ | ⟨rfl, hle, htie⟩ := hm <;> obtain hk | rfl | rfl | hk := hk <;> omega

/-- The values of the infinity's pattern and of the largest finite one, in units of half their distance. -/
theorem magUnits_infMag : magUnits infMag = 2 ^ 25 * 2 ^ 252 := by decide

theorem magUnits_infMag_pred : magUnits (infMag - 1) = (2 ^ 25 - 2) * 2 ^ 252 := by decide

/-- The nearer pattern is past the finite ones exactly from half a unit above the largest finite value on. -/
theorem Bracket.infMag_le_iff {num den lo r gap m : Nat} (hb : Bracket num den lo r gap)
    (hm : NearerEven lo r gap m) : infMag ≤ m ↔ (2 ^ 25 - 1) * 2 ^ 252 * den ≤ num := by
  obtain ⟨-, hnum, hgap, hr⟩ := hb
  have mono : ∀ {i j}, i ≤ j → den * magUnits i ≤ den * magUnits j := fun hij =>
    Nat.mul_le_mul_left den (magUnits_strictMono.monotone hij)
  have hinf : den * magUnits infMag = 2 ^ 25 * (2 ^ 252 * den) := by rw [magUnits_infMag]; ring
  have hpred : den * magUnits (infMag - 1) = (2 ^ 25 - 2) * (2 ^ 252 * den) := by rw [magUnits_infMag_pred]; ring
  have hodd : (infMag - 1) % 2 = 1 := by decide
  unfold NearerEven at hm
  rw [Nat.mul_assoc]
  generalize 2 ^ 252 * den = half at hinf hpred ⊢
  obtain hlo | rfl | hlo : infMag ≤ lo ∨ lo = infMag - 1 ∨ lo + 1 ≤ infMag - 1 := by omega
  · have := mono hlo
    omega
  · rw [Nat.sub_add_cancel (by decide : 1 ≤ infMag)] at hgap hm
    omega
  · have := mono hlo
    omega

/-- Settles O8: `floorMag` and its successor bracket the exact result, and `roundMag` answers the nearer of the two, an
infinity where that is past the finite patterns. -/
theorem roundingIsNearestEven : Obligations.RoundingIsNearestEven := by
  intro num den hden
  have hb := bracket_floorMag num den hden
  obtain ⟨m, hround, hm⟩ := roundMag_cases num den
  have hinf := hb.infMag_le_iff hm
  rw [hround]
  by_cases hle : infMag ≤ m
  · exact .inl ⟨Nat.min_eq_right hle, hinf.mp hle⟩
  · rw [Nat.min_eq_left (Nat.le_of_not_le hle)]
    exact .inr ⟨Nat.lt_of_not_le hle, Nat.lt_of_not_le fun h => hle (hinf.mpr h), hb.nearestFinite hm⟩

end Sys2Proof.Machine

/-!
PROOFS. The binary32 operations on finite and special operands, their order, and the conversion of integers (00_scope.md
R10 to R14); last the check of a configuration at build (R6).
-/

namespace Sys2Proof.Machine

/-! ### The classes of patterns (00_scope.md R9) -/

theorem isFinite_iff (a : Word) : isFinite a = true ↔ magOf a < infMag := decide_eq_true_iff

theorem isInf_iff (a : Word) : isInf a = true ↔ magOf a = infMag := beq_iff_eq

theorem isZero_iff (a : Word) : isZero a = true ↔ magOf a = 0 := beq_iff_eq

theorem isNaN_of_isFinite {a : Word} (h : isFinite a = true) : isNaN a = false :=
  decide_eq_false (Nat.lt_asymm ((isFinite_iff a).mp h))

theorem isInf_of_isFinite {a : Word} (h : isFinite a = true) : isInf a = false :=
  beq_eq_false_iff_ne.mpr (Nat.ne_of_lt ((isFinite_iff a).mp h))

theorem isNaN_of_isInf {a : Word} (h : isInf a = true) : isNaN a = false :=
  decide_eq_false (Nat.not_lt_of_le (Nat.le_of_eq ((isInf_iff a).mp h)))

theorem isZero_of_isInf {a : Word} (h : isInf a = true) : isZero a = false :=
  beq_eq_false_iff_ne.mpr (by rw [(isInf_iff a).mp h]; decide)

theorem isFinite_of_isZero {a : Word} (h : isZero a = true) : isFinite a = true :=
  (isFinite_iff a).mpr (by rw [(isZero_iff a).mp h]; decide)

theorem isInf_fneg (a : Word) : isInf (fneg a) = isInf a := by simp only [isInf, magOf_fneg]

theorem isFinite_fneg (a : Word) : isFinite (fneg a) = isFinite a := by simp only [isFinite, magOf_fneg]

theorem isInf_infinity (s : Bool) : isInf (infinity s) = true := by cases s <;> decide

theorem signOf_infinity (s : Bool) : signOf (infinity s) = s := by cases s <;> decide

theorem magOf_zeroOf (s : Bool) : magOf (zeroOf s) = 0 := by cases s <;> decide

theorem isZero_zeroOf (s : Bool) : isZero (zeroOf s) = true := (isZero_iff _).mpr (magOf_zeroOf s)

theorem signOf_zeroOf (s : Bool) : signOf (zeroOf s) = s := by cases s <;> decide

theorem valueOf_fneg (a : Word) : valueOf (fneg a) = -valueOf a := by
  unfold valueOf unitsOf
  rw [signOf_fneg, magOf_fneg]
  cases signOf a <;> simp

theorem magUnits_eq_zero_iff (m : Nat) : magUnits m = 0 ↔ m = 0 :=
  magUnits_strictMono.injective.eq_iff' rfl

theorem unitsOf_pos {a : Word} (h : isZero a = false) : 0 < unitsOf a := by
  rw [unitsOf, Nat.pos_iff_ne_zero, Ne, magUnits_eq_zero_iff]
  exact beq_eq_false_iff_ne.mp h

/-! ### The operations on finite operands -/

theorem roundsTo_roundTo (s : Bool) (num den : Nat) (h : 0 < den) : RoundsTo num den (magOf (roundTo s num den)) := by
  rw [magOf_roundTo]
  exact roundingIsNearestEven num den h

theorem fadd_finite (nan : Word) {a b : Word} (ha : isFinite a = true) (hb : isFinite b = true) :
    fadd nan a b =
      if valueOf a + valueOf b = 0 then zeroOf (signOf a && signOf b)
      else roundTo (decide (valueOf a + valueOf b < 0)) (valueOf a + valueOf b).natAbs 1 := by
  simp [fadd, isNaN_of_isFinite, isInf_of_isFinite, ha, hb]

theorem fmul_finite (nan : Word) {a b : Word} (ha : isFinite a = true) (hb : isFinite b = true) :
    fmul nan a b = roundTo (signOf a != signOf b) (unitsOf a * unitsOf b) (2 ^ 149) := by
  simp [fmul, isNaN_of_isFinite, isInf_of_isFinite, ha, hb]

theorem fdiv_finite (nan : Word) {a b : Word} (ha : isFinite a = true) (hb : isFinite b = true)
    (hz : isZero b = false) :
    fdiv nan a b = roundTo (signOf a != signOf b) (unitsOf a * 2 ^ 149) (unitsOf b) := by
  simp [fdiv, isNaN_of_isFinite, isInf_of_isFinite, ha, hb, hz]

/-- A difference is the sum with the second operand's sign changed. -/
theorem fsub_eq_fadd_fneg (nan a : Word) {b : Word} (hb : isNaN b = false) : fsub nan a b = fadd nan a (fneg b) := by
  simp [fsub, hb]

theorem fadd_rounds (nan : Word) {a b : Word} (ha : isFinite a = true) (hb : isFinite b = true) :
    RoundsTo (valueOf a + valueOf b).natAbs 1 (magOf (fadd nan a b)) ∧
    (valueOf a + valueOf b ≠ 0 → signOf (fadd nan a b) = decide (valueOf a + valueOf b < 0)) ∧
    (valueOf a + valueOf b = 0 → signOf (fadd nan a b) = (signOf a && signOf b)) := by
  rw [fadd_finite nan ha hb]
  split
  next hzero =>
    have hr : roundMag 0 1 = 0 := by decide
    rw [hzero, magOf_zeroOf, signOf_zeroOf]
    exact ⟨hr ▸ roundingIsNearestEven 0 1 Nat.one_pos, fun hne => absurd rfl hne, fun _ => rfl⟩
  next hne =>
    rw [signOf_roundTo]
    exact ⟨roundsTo_roundTo _ _ 1 Nat.one_pos, fun _ => rfl, fun hzero => absurd hzero hne⟩

/-- Settles O9: `fsub` is `fadd` of the negated operand, which has the negated value. -/
theorem sumsRoundTheExactValueOnce : Obligations.SumsRoundTheExactValueOnce := by
  intro nan a b ha hb
  refine ⟨fadd_rounds nan ha hb, ?_⟩
  have h := fadd_rounds nan ha (b := fneg b) (by rwa [isFinite_fneg])
  rwa [valueOf_fneg, ← Int.sub_eq_add_neg, signOf_fneg, ← fsub_eq_fadd_fneg nan a (isNaN_of_isFinite hb)] at h

/-- Settles O10: the equations for finite operands, with the rounding of O8. -/
theorem productsAndQuotientsRoundTheExactValueOnce : Obligations.ProductsAndQuotientsRoundTheExactValueOnce := by
  intro nan a b ha hb
  refine ⟨?_, fun hz => ?_⟩
  · rw [fmul_finite nan ha hb]
    exact ⟨roundsTo_roundTo _ _ _ (Nat.two_pow_pos 149), signOf_roundTo _ _ _⟩
  · rw [fdiv_finite nan ha hb hz]
    exact ⟨roundsTo_roundTo _ _ _ (unitsOf_pos hz), signOf_roundTo _ _ _⟩

/-! ### The operations on special operands -/

section Special

variable {nan a b : Word}

theorem isNaN_fadd (hn : isNaN nan = true) :
    isNaN (fadd nan a b) = (isNaN a || isNaN b || (isInf a && isInf b && signOf a != signOf b)) := by
  unfold fadd
  split_ifs with hnan hia hopp hib
  · rw [hn, hnan, Bool.true_or]
  all_goals rw [Bool.eq_false_of_not_eq_true hnan, Bool.false_or, Bool.and_assoc]
  · rw [hn, hia, hopp, Bool.true_and]
  · rw [isNaN_of_isInf hia, Bool.eq_false_of_not_eq_true hopp, Bool.and_false]
  all_goals rw [Bool.eq_false_of_not_eq_true hia, Bool.false_and]
  · exact isNaN_of_isInf hib
  · exact isNaN_zeroOf _
  · exact isNaN_roundTo _ _ _

theorem isNaN_fsub (hn : isNaN nan = true) :
    isNaN (fsub nan a b) = (isNaN a || isNaN b || (isInf a && isInf b && signOf a == signOf b)) := by
  cases hb : isNaN b with
  | true => rw [fsub_drawsNaN.propagates nan a b (.inr hb), hn, Bool.or_true, Bool.true_or]
  | false =>
    have hsign : (signOf a != !signOf b) = (signOf a == signOf b) := by cases signOf a <;> cases signOf b <;> rfl
    rw [fsub_eq_fadd_fneg nan a hb, isNaN_fadd hn, isNaN_fneg, isInf_fneg, signOf_fneg, hb, hsign]

theorem isNaN_fmul (hn : isNaN nan = true) :
    isNaN (fmul nan a b) = (isNaN a || isNaN b || (isInf a && isZero b) || (isZero a && isInf b)) := by
  unfold fmul
  split_ifs with hnan hinv hinf
  · rw [hn, hnan, Bool.true_or, Bool.true_or]
  · rw [hn, Bool.or_assoc, hinv, Bool.or_true]
  · rw [isNaN_infinity, Bool.or_assoc, Bool.eq_false_of_not_eq_true hnan, Bool.eq_false_of_not_eq_true hinv]
    rfl
  · rw [isNaN_roundTo, Bool.or_assoc, Bool.eq_false_of_not_eq_true hnan, Bool.eq_false_of_not_eq_true hinv]
    rfl

theorem isNaN_fdiv (hn : isNaN nan = true) :
    isNaN (fdiv nan a b) = (isNaN a || isNaN b || (isInf a && isInf b) || (isZero a && isZero b)) := by
  unfold fdiv
  split_ifs with hnan hinv hinf hib
  · rw [hn, hnan, Bool.true_or, Bool.true_or]
  · rw [hn, Bool.or_assoc, hinv, Bool.or_true]
  all_goals rw [Bool.or_assoc, Bool.eq_false_of_not_eq_true hnan, Bool.eq_false_of_not_eq_true hinv]
  · exact isNaN_infinity _
  · exact isNaN_zeroOf _
  · exact isNaN_roundTo _ _ _

theorem fadd_inf_left (ha : isInf a = true) (hb : isNaN b = false) (h : isInf b = true → signOf a = signOf b) :
    fadd nan a b = a := by
  unfold fadd
  rw [isNaN_of_isInf ha, hb, if_neg (by decide), if_pos ha, if_neg]
  simpa using h

theorem fadd_inf_right (ha : isFinite a = true) (hb : isInf b = true) : fadd nan a b = b := by
  simp [fadd, isNaN_of_isFinite ha, isInf_of_isFinite ha, isNaN_of_isInf hb, hb]

/-- An infinite product: an operand is infinite, none is a NaN, none is zero. -/
theorem fmul_infinite (hna : isNaN a = false) (hnb : isNaN b = false) (hza : isZero a = false)
    (hzb : isZero b = false) (h : isInf a = true ∨ isInf b = true) :
    fmul nan a b = infinity (signOf a != signOf b) := by
  simp [fmul, hna, hnb, hza, hzb, h]

/-- An infinite quotient: the dividend is infinite and the divisor finite, or the divisor alone is zero. -/
theorem fdiv_infinite (hna : isNaN a = false) (hb : isFinite b = true)
    (h : isInf a = true ∨ (isZero a = false ∧ isZero b = true)) :
    fdiv nan a b = infinity (signOf a != signOf b) := by
  obtain ha | ⟨ha, hz⟩ := h
  · simp [fdiv, hna, isNaN_of_isFinite hb, isInf_of_isFinite hb, ha, isZero_of_isInf ha]
  · simp [fdiv, hna, isNaN_of_isFinite hb, isInf_of_isFinite hb, ha, hz]

theorem fdiv_by_inf (ha : isFinite a = true) (hb : isInf b = true) :
    fdiv nan a b = zeroOf (signOf a != signOf b) := by
  simp [fdiv, isNaN_of_isFinite ha, isInf_of_isFinite ha, isNaN_of_isInf hb, isZero_of_isInf hb, hb]

end Special

/-- Settles O11: the class of each result, then the operation's equation for each pair of special operands. -/
theorem specialValuesFollowTheRules : Obligations.SpecialValuesFollowTheRules := by
  intro nan a b hn
  have inf_of_eq : ∀ {x : Word} {s : Bool}, x = infinity s → isInf x = true ∧ signOf x = s := by
    rintro _ s rfl
    exact ⟨isInf_infinity s, signOf_infinity s⟩
  refine ⟨isNaN_fadd hn, isNaN_fsub hn, isNaN_fmul hn, isNaN_fdiv hn, ?_, ?_, ?_, ?_, ?_, ?_, ?_, ?_, ?_⟩
  · -- a sum of an infinity and a finite value, on either side
    intro ha hb
    exact ⟨fadd_inf_left ha (isNaN_of_isFinite hb) (by simp [isInf_of_isFinite hb]), fadd_inf_right hb ha⟩
  · -- a sum of like infinities
    intro ha hb hs
    exact fadd_inf_left ha (isNaN_of_isInf hb) fun _ => hs
  · -- an infinity less a finite value
    intro ha hb
    have hnb := isNaN_of_isFinite hb
    rw [fsub_eq_fadd_fneg nan a hnb]
    exact fadd_inf_left ha (by rwa [isNaN_fneg]) (by simp [isInf_fneg, isInf_of_isFinite hb])
  · -- a finite value less an infinity
    intro ha hb
    rw [fsub_eq_fadd_fneg nan a (isNaN_of_isInf hb), fadd_inf_right ha (by rwa [isInf_fneg])]
    exact ⟨by rwa [isInf_fneg], signOf_fneg b⟩
  · -- a difference of unlike infinities
    intro ha hb hs
    have hnb := isNaN_of_isInf hb
    rw [fsub_eq_fadd_fneg nan a hnb]
    refine fadd_inf_left ha (by rwa [isNaN_fneg]) fun _ => ?_
    rw [signOf_fneg]
    exact Bool.eq_not.mpr hs
  · -- a product with an infinity, on either side
    intro ha hnb hzb
    have hna := isNaN_of_isInf ha
    have hza := isZero_of_isInf ha
    obtain ⟨h₁, h₂⟩ := inf_of_eq (fmul_infinite (nan := nan) hna hnb hza hzb (.inl ha))
    obtain ⟨h₃, h₄⟩ := inf_of_eq (fmul_infinite (nan := nan) hnb hna hzb hza (.inr ha))
    exact ⟨h₁, h₂, h₃, h₄⟩
  · -- an infinity divided by a finite value
    intro ha hb
    exact inf_of_eq (fdiv_infinite (isNaN_of_isInf ha) hb (.inl ha))
  · -- a nonzero finite value divided by zero
    intro hza ha hzb
    exact inf_of_eq (fdiv_infinite (isNaN_of_isFinite ha) (isFinite_of_isZero hzb) (.inr ⟨hza, hzb⟩))
  · -- a finite value divided by an infinity
    intro ha hb
    rw [fdiv_by_inf ha hb]
    exact ⟨isZero_zeroOf _, signOf_zeroOf _⟩

/-! ### Commutativity -/

theorem fadd_comm (nan a b : Word) : fadd nan a b = fadd nan b a := by
  unfold fadd
  rw [Bool.or_comm (isNaN b), Bool.and_comm (signOf b), Int.add_comm (valueOf b)]
  cases ha : isInf a <;> cases hb : isInf b
  case true.true =>
    by_cases hs : signOf a = signOf b
    · rw [eq_of_sign_mag a b hs (((isInf_iff a).mp ha).trans ((isInf_iff b).mp hb).symm)]
    · simp [hs, Ne.symm hs]
  all_goals simp

theorem fmul_comm (nan a b : Word) : fmul nan a b = fmul nan b a := by
  unfold fmul
  rw [Bool.or_comm (isNaN b), Bool.or_comm (isInf b), Bool.or_comm (isInf b && isZero a), Bool.and_comm (isInf b),
    Bool.and_comm (isZero b), bne_comm (a := signOf b), Nat.mul_comm (unitsOf b)]

/-- Settles O12: every branch is symmetric; two infinities of like sign are one pattern. -/
theorem additionAndMultiplicationCommute : Obligations.AdditionAndMultiplicationCommute :=
  fun nan a b => ⟨fadd_comm nan a b, fmul_comm nan a b⟩

/-! ### The comparisons (00_scope.md R12) -/

theorem getLsbD_fabs (a : Word) (i : Nat) : (fabs a).getLsbD i = (a.getLsbD i && decide (i < 31)) := by
  have hmask : (0x7FFFFFFF#32).getLsbD i = decide (i < 31) := by
    rw [BitVec.getLsbD_ofNat, show 0x7FFFFFFF = 2 ^ 31 - 1 by decide, Nat.testBit_two_pow_sub_one]
    simp
    omega
  rw [fabs, BitVec.getLsbD_and, hmask]

/-- The order of the keys is the order of the values. -/
theorem orderKey_lt_iff (a b : Word) : orderKey a < orderKey b ↔ valueOf a < valueOf b := by
  have hlt : magUnits (magOf a) < magUnits (magOf b) ↔ magOf a < magOf b := magUnits_strictMono.lt_iff_lt
  have hgt : magUnits (magOf b) < magUnits (magOf a) ↔ magOf b < magOf a := magUnits_strictMono.lt_iff_lt
  have ha := magUnits_eq_zero_iff (magOf a)
  have hb := magUnits_eq_zero_iff (magOf b)
  unfold orderKey valueOf unitsOf
  cases signOf a <;> cases signOf b <;> simp <;> omega

theorem orderKey_le_iff (a b : Word) : orderKey a ≤ orderKey b ↔ valueOf a ≤ valueOf b := by
  rw [← Int.not_lt, ← Int.not_lt, orderKey_lt_iff]

theorem orderKey_of_isInf {a : Word} (h : isInf a = true) :
    orderKey a = if signOf a then -(infMag : Int) else (infMag : Int) := by
  rw [orderKey, (isInf_iff a).mp h]

theorem orderKey_bounds_of_isFinite {a : Word} (h : isFinite a = true) :
    -(infMag : Int) < orderKey a ∧ orderKey a < (infMag : Int) := by
  have := (isFinite_iff a).mp h
  unfold orderKey
  split <;> omega

/-- With no NaN the comparisons compare the keys. -/
theorem comparisons_of_not_isNaN {a b : Word} (ha : isNaN a = false) (hb : isNaN b = false) :
    fgt a b = decide (orderKey b < orderKey a) ∧ flt a b = decide (orderKey a < orderKey b) ∧
    fge a b = decide (orderKey b ≤ orderKey a) ∧ fle a b = decide (orderKey a ≤ orderKey b) := by
  simp [fgt, flt, fge, fle, ha, hb]

/-- With a NaN they are false. -/
theorem comparisons_of_isNaN {a b : Word} (h : isNaN a = true ∨ isNaN b = true) :
    fgt a b = false ∧ flt a b = false ∧ fge a b = false ∧ fle a b = false := by
  obtain h | h := h <;> simp [fgt, flt, fge, fle, h]

theorem comparisons_finite {a b : Word} (ha : isFinite a = true) (hb : isFinite b = true) :
    (fgt a b = true ↔ valueOf b < valueOf a) ∧ (flt a b = true ↔ valueOf a < valueOf b) ∧
    (fge a b = true ↔ valueOf b ≤ valueOf a) ∧ (fle a b = true ↔ valueOf a ≤ valueOf b) := by
  obtain ⟨hgt, hlt, hge, hle⟩ := comparisons_of_not_isNaN (isNaN_of_isFinite ha) (isNaN_of_isFinite hb)
  simp only [hgt, hlt, hge, hle, decide_eq_true_eq, orderKey_lt_iff, orderKey_le_iff, and_self]

/-- Settles O13: the comparisons compare keys, and the keys are ordered as the values are. -/
theorem comparisonsOrderValues : Obligations.ComparisonsOrderValues := by
  refine ⟨fun a => ⟨?_, fun i hi => ?_, isNaN_fabs a⟩, fun a b h => comparisons_of_isNaN h,
    fun a b ha hb => comparisons_finite ha hb, fun a b ha hb => ?_, fun a b ha hb => ?_⟩
  · rw [getLsbD_fabs, decide_eq_false (by decide), Bool.and_false]
  · rw [getLsbD_fabs, decide_eq_true hi, Bool.and_true]
  · obtain ⟨hlo, hhi⟩ := orderKey_bounds_of_isFinite ha
    obtain ⟨hgt, hlt, hge, hle⟩ := comparisons_of_not_isNaN (isNaN_of_isFinite ha) (isNaN_of_isInf hb)
    obtain ⟨hgt', hlt', hge', hle'⟩ := comparisons_of_not_isNaN (isNaN_of_isInf hb) (isNaN_of_isFinite ha)
    rw [hgt, hlt, hge, hle, hgt', hlt', hge', hle', orderKey_of_isInf hb]
    cases signOf b <;> simp <;> omega
  · obtain ⟨hgt, hlt, hge, hle⟩ := comparisons_of_not_isNaN (isNaN_of_isInf ha) (isNaN_of_isInf hb)
    rw [hgt, hlt, hge, hle, orderKey_of_isInf ha, orderKey_of_isInf hb]
    cases signOf a <;> cases signOf b <;> decide

/-! ### Integers (00_scope.md R14) -/

/-- A result that is the value of a finite pattern is answered exactly. -/
theorem RoundsTo.exact {num m k : Nat} (h : RoundsTo num 1 m) (hk : k < infMag) (hnum : magUnits k = num) : m = k := by
  have hlt : magUnits k ≤ magUnits (infMag - 1) := magUnits_strictMono.monotone (by omega)
  rw [magUnits_infMag_pred, hnum] at hlt
  obtain ⟨-, hle⟩ | ⟨-, -, hnear⟩ := h
  · omega
  · obtain ⟨hdist, -⟩ := hnear k hk
    unfold natDist at hdist
    rw [hnum] at hdist
    exact magUnits_strictMono.injective (by omega)

/-- Every integer below `2^24` is the value of a finite pattern: its leading one moved to bit 23 gives the significand. -/
theorem exists_finite_of_lt_two_pow_24 (k : Nat) (hk : k < 2 ^ 24) :
    ∃ m, m < infMag ∧ magUnits m = k * 2 ^ 149 := by
  by_cases hz : k = 0
  · exact ⟨0, by decide, by rw [hz]; decide⟩
  · have hlog : Nat.log2 k < 24 := (Nat.log2_lt hz).mpr hk
    have hsplit : 2 ^ 24 = 2 ^ (Nat.log2 k + 1) * 2 ^ (23 - Nat.log2 k) := by
      rw [← Nat.pow_add]
      congr 1
      omega
    have hsplit' : 2 ^ 23 = 2 ^ Nat.log2 k * 2 ^ (23 - Nat.log2 k) := by
      rw [← Nat.pow_add]
      congr 1
      omega
    have hlo : 2 ^ 23 ≤ k * 2 ^ (23 - Nat.log2 k) := hsplit' ▸ Nat.mul_le_mul_right _ (Nat.log2_self_le hz)
    have hhi : k * 2 ^ (23 - Nat.log2 k) ≤ 2 ^ 24 := hsplit ▸ Nat.mul_le_mul_right _ Nat.lt_log2_self.le
    refine ⟨(126 + Nat.log2 k) * 2 ^ 23 + k * 2 ^ (23 - Nat.log2 k), ?_, ?_⟩
    · unfold infMag
      omega
    · rw [magUnits_significand _ _ (.inr hlo) hhi, Nat.mul_assoc, ← Nat.pow_add]
      congr 2
      omega

theorem i2f_exact (k : Nat) (hk : k < 2 ^ 24) : isFinite (i2f k) = true ∧ unitsOf (i2f k) = k * 2 ^ 149 := by
  obtain ⟨m, hm, hunits⟩ := exists_finite_of_lt_two_pow_24 k hk
  have hmag : magOf (i2f k) = m := (roundsTo_roundTo false (k * 2 ^ 149) 1 Nat.one_pos).exact hm hunits
  rw [isFinite_iff, unitsOf, hmag]
  exact ⟨hm, hunits⟩

/-- Settles O14: an integer below `2^24` is the value of a finite pattern, which rounding then answers. -/
theorem integerConversionRoundsAndIsExactBelowTwoPow24 :
    Obligations.IntegerConversionRoundsAndIsExactBelowTwoPow24 :=
  ⟨fun k => ⟨signOf_roundTo _ _ _, roundsTo_roundTo false (k * 2 ^ 149) 1 Nat.one_pos⟩, i2f_exact, by decide, by decide⟩

/-! ### The worked values of 00_scope.md R11 -/

/-- Settles O15: every operand and intermediate result is finite, so no draw of a NaN shows. -/
theorem roundingOrderIsObservable : Obligations.RoundingOrderIsObservable := by
  intro nan
  have left : fmul nan 0x3DCCCCCD#32 0x3E4CCCCD#32 = 0x3CA3D70B#32 := (fmul_finite nan rfl rfl).trans (by decide)
  have right : fmul nan 0x3E4CCCCD#32 0x42C80000#32 = 0x41A00000#32 := (fmul_finite nan rfl rfl).trans (by decide)
  have product : fmul nan 0x3F7CBFB1#32 0x44E10000#32 = 0x44DE247B#32 := (fmul_finite nan rfl rfl).trans (by decide)
  rw [left, right, product]
  refine ⟨(fmul_finite nan rfl rfl).trans (by decide), (fmul_finite nan rfl rfl).trans (by decide),
    (fadd_finite nan rfl rfl).trans (by decide), ?_⟩
  rintro v rfl
  decide

/-! ### The check of a configuration at build (00_scope.md R6) -/

theorem Cfg_wf_iff (c : Cfg) :
    c.wf = true ↔ 1 ≤ c.adcRateHz ∧ 1 ≤ c.targetRateHz ∧ c.adcRateHz % c.targetRateHz = 0 ∧
      1 ≤ c.adcRateHz / c.targetRateHz ∧ c.adcRateHz / c.targetRateHz < 2 ^ 32 ∧
      1 ≤ c.ringSize ∧ c.ringSize < 2 ^ 32 ∧ (∀ e ∈ c.devTab, 3 ≤ e.cat.toNat) ∧ c.devTab.length < 2 ^ 16 := by
  unfold Cfg.wf Cfg.decimOk Cfg.decim
  simp only [Cfg.adcRateOk, Cfg.targetRateOk, Cfg.ratioOk, Cfg.ringOk, Cfg.tableOk, devCatsOk, devCountOk,
    Bool.and_eq_true, decide_eq_true_eq, beq_iff_eq, List.all_eq_true, and_assoc]

/-- Settles O20. -/
theorem illFormedConfigurationBuildsNoCore : Obligations.IllFormedConfigurationBuildsNoCore := by
  intro c t
  unfold State.powerUp
  simp only [Cfg_wf_iff]

end Sys2Proof.Machine

/-!
PROOFS. What an operation and a step can change, said once for the statements of 10_state.md: which agent's registers an
operation touches (R21), which of PROC's registers it writes (R25 to R31, R35), and what a step makes of it.
-/

namespace Sys2Proof.Machine

/-! ### The agents (10_state.md R20, R21) -/

theorem format_of_decodeBeat {cmd : Beat} {i : Instr} (h : decodeBeat cmd = .ok i) : i.format = .h := by
  rcases decodeBeat_cases cmd with ⟨_, hd⟩ | ⟨_, hd⟩ | ⟨_, _, hd⟩ <;> rw [hd] at h
  · exact Except.ok.inj h ▸ rfl
  · exact Except.ok.inj h ▸ rfl
  · cases h

/-- The answers of WAIT: the filter reset, the pair latched, or nothing to do. -/
theorem execWait_next {s t : State} (h : execWait s = .next t) :
    (s.shared.frstPend = true ∧ t = filterReset s) ∨ t = latchPair s ∨ t = s := by
  rcases execWait_cases s with ⟨hp, hx⟩ | ⟨_, _, hx⟩ | ⟨_, _, hx⟩ <;> rw [hx] at h
  · exact .inl ⟨hp, (Host.Outcome.next.inj h).symm⟩
  · exact .inr (.inl (Host.Outcome.next.inj h).symm)
  · exact .inr (.inr (Host.Outcome.next.inj h).symm)

/-- The answer of BPUSH that is no stop. -/
theorem execBpush_next {s t : State} (h : execBpush s = .next t) :
    cursorOk s.cfg s.proc = true ∧
      t = s.setProc { s.proc with
        buf := s.proc.buf.write s.proc.cur.toNat s.proc.p
        cur := if cursorLast s.cfg s.proc then 0#32 else s.proc.cur + 1#32
        full := s.proc.full || cursorLast s.cfg s.proc
        stage := 0x16#8 } := by
  rcases execBpush_cases s with ⟨_, hx⟩ | ⟨hok, hx⟩ <;> rw [hx] at h
  · cases h
  · exact ⟨hok, (Host.Outcome.next.inj h).symm⟩

theorem execSample_dropped {ch : Code8} (hc : channelOf ch = none) (raw : Word) (ts : Time) (s : State) :
    execSample ch raw ts s = .next s := by
  unfold execSample
  rw [hc]

theorem execSample_accepted {ch : Code8} {c : Chan} {s : State} (hc : channelOf ch = some c)
    (hf : countFull s.cfg (s.acq.chan c) = false) (raw : Word) (ts : Time) :
    execSample ch raw ts s = .next (acceptSample c raw s) := by
  simp [execSample, hc, hf]

/-- The answers of SAMPLE that are no stop. -/
theorem execSample_next {ch : Code8} {raw : Word} {ts : Time} {s t : State} (h : execSample ch raw ts s = .next t) :
    (channelOf ch = none ∧ t = s) ∨
      ∃ c, channelOf ch = some c ∧ countFull s.cfg (s.acq.chan c) = false ∧ t = acceptSample c raw s := by
  rcases execSample_cases ch raw ts s with ⟨hc, hx⟩ | ⟨_, _, _, hx⟩ | ⟨c, hc, hf, hx⟩ <;> rw [hx] at h
  · exact .inl ⟨hc, (Host.Outcome.next.inj h).symm⟩
  · cases h
  · exact .inr ⟨c, hc, hf, (Host.Outcome.next.inj h).symm⟩

/-- A host command leaves the configuration, PROC's registers and the clock. -/
theorem exec_host_frame {i : Instr} {s t : State} (hi : i.format = .h) (h : exec i s = .next t) :
    t.cfg = s.cfg ∧ t.proc = s.proc ∧ t.clk = s.clk := by
  cases i with
  | sample ch raw ts =>
    obtain ⟨_, rfl⟩ | ⟨c, _, _, rfl⟩ := execSample_next (ts := ts) h
    · exact ⟨rfl, rfl, rfl⟩
    · obtain ⟨hcfg, hproc, hclk, _, _⟩ := acceptSample_frame c raw s
      exact ⟨hcfg, hproc, hclk⟩
  | freset =>
    obtain rfl := Host.Outcome.next.inj h
    exact ⟨rfl, rfl, rfl⟩
  | wait | pwr | bq0 | bq1 | bq2 | bpush | detect | classify | emit | base | status => cases hi

theorem exec_host_proc {i : Instr} {s t : State} (hi : i.format = .h) (h : exec i s = .next t) : t.proc = s.proc := by
  obtain ⟨_, hproc, _⟩ := exec_host_frame hi h
  exact hproc

/-- A stage leaves the configuration, ACQ's registers and the clock. -/
theorem exec_stage_frame {i : Instr} {s t : State} (hi : i.format = .s) (h : exec i s = .next t) :
    t.cfg = s.cfg ∧ t.acq = s.acq ∧ t.clk = s.clk := by
  cases i with
  | sample | freset => cases hi
  | wait =>
    obtain ⟨_, rfl⟩ | rfl | rfl := execWait_next h
    · exact ⟨rfl, rfl, rfl⟩
    · exact ⟨rfl, rfl, rfl⟩
    · exact ⟨rfl, rfl, rfl⟩
  | bpush =>
    obtain ⟨_, rfl⟩ := execBpush_next h
    exact ⟨rfl, rfl, rfl⟩
  | pwr | bq0 | bq1 | bq2 | detect | classify | emit | base | status =>
    obtain rfl := Host.Outcome.next.inj h
    exact ⟨rfl, rfl, rfl⟩

/-- No operation writes the configuration or the clock (10_state.md R33, R34). -/
theorem exec_cfg_clk {i : Instr} {s t : State} (h : exec i s = .next t) : t.cfg = s.cfg ∧ t.clk = s.clk := by
  cases hi : i.format with
  | h =>
    obtain ⟨hcfg, _, hclk⟩ := exec_host_frame hi h
    exact ⟨hcfg, hclk⟩
  | s =>
    obtain ⟨hcfg, _, hclk⟩ := exec_stage_frame hi h
    exact ⟨hcfg, hclk⟩

/-- An accepted sample reads neither PROC's registers nor the clock. -/
theorem acceptSample_setProc_setClock (c : Chan) (raw : Word) (s : State) (q : Proc) (now : Time) :
    acceptSample c raw ((s.setProc q).setClock now) = ((acceptSample c raw s).setProc q).setClock now := by
  unfold acceptSample
  dsimp only
  rw [apply_ite (fun u : State => (u.setProc q).setClock now)]
  rfl

/-- A host command reads neither PROC's registers nor the clock: other values there change nothing else. -/
theorem exec_host_setProc_setClock {i : Instr} {s t : State} (hi : i.format = .h) (h : exec i s = .next t) (q : Proc)
    (now : Time) : exec i ((s.setProc q).setClock now) = .next ((t.setProc q).setClock now) := by
  cases i with
  | sample ch raw ts =>
    obtain ⟨hc, rfl⟩ | ⟨c, hc, hf, rfl⟩ := execSample_next (ts := ts) h
    · exact execSample_dropped hc raw ts _
    · rw [← acceptSample_setProc_setClock]
      exact execSample_accepted (s := (s.setProc q).setClock now) hc hf raw ts
  | freset => exact Host.Outcome.next.inj h ▸ rfl
  | wait | pwr | bq0 | bq1 | bq2 | bpush | detect | classify | emit | base | status => cases hi

/-- A stage does not read ACQ's registers: other values there change nothing else. -/
theorem exec_stage_setAcq {i : Instr} {s t : State} (hi : i.format = .s) (h : exec i s = .next t) (a : Acq) :
    exec i (s.setAcq a) = .next (t.setAcq a) := by
  cases i with
  | sample | freset => cases hi
  | wait =>
    obtain rfl := Host.Outcome.next.inj h
    rw [apply_ite (State.setAcq · a), apply_ite (State.setAcq · a)]
    rfl
  | bpush =>
    obtain ⟨hok, rfl⟩ := execBpush_next h
    exact if_pos hok
  | pwr | bq0 | bq1 | bq2 | detect | classify | emit | base | status =>
    exact Host.Outcome.next.inj h ▸ rfl

/-- Settles O50: the frames of the two agents' operations, and that other values in the other agent's registers change
nothing else. -/
theorem agentsKeepToTheirOwnState : Obligations.AgentsKeepToTheirOwnState := by
  intro i s t h
  refine ⟨fun hi => ⟨exec_host_proc hi h, exec_host_setProc_setClock hi h⟩, fun hi => ?_⟩
  obtain ⟨_, hacq, _⟩ := exec_stage_frame hi h
  exact ⟨hacq, exec_stage_setAcq hi h⟩

/-! ### Which operation writes which of PROC's registers (10_state.md R25 to R31, R35) -/

/-- The stage of a section (42_highpass_filter.md R106 to R108). -/
def Sec.instr : Sec → Instr
  | .sec0 => .bq0
  | .sec1 => .bq1
  | .sec2 => .bq2

/-- The one stage that writes each of the registers; the delay lines are written by WAIT's reset arm too. -/
structure RegisterFrame (i : Instr) (s t : State) : Prop where
  delay : ∀ k : Sec, i ≠ k.instr → ¬ (i = .wait ∧ s.shared.frstPend = true) → t.proc.delay k = s.proc.delay k
  full  : i ≠ .bpush → t.proc.full = s.proc.full
  last  : i ≠ .detect → t.proc.last = s.proc.last
  evt   : i ≠ .emit → t.proc.evt = s.proc.evt
  sts   : i ≠ .status → t.proc.sts = s.proc.sts

theorem RegisterFrame.of_proc_eq (i : Instr) {s t : State} (h : t.proc = s.proc) : RegisterFrame i s t := by
  constructor <;> simp [h]

theorem RegisterFrame.refl (i : Instr) (s : State) : RegisterFrame i s s := .of_proc_eq i rfl

theorem RegisterFrame.runSection (k : Sec) (next : Code8) (s : State) :
    RegisterFrame k.instr s (runSection k next s) := by
  cases k with
  | sec0 =>
    exact { RegisterFrame.refl .bq0 s with
      delay := Sec_forall (fun h => absurd rfl h) (fun _ _ => rfl) (fun _ _ => rfl) }
  | sec1 =>
    exact { RegisterFrame.refl .bq1 s with
      delay := Sec_forall (fun _ _ => rfl) (fun h => absurd rfl h) (fun _ _ => rfl) }
  | sec2 =>
    exact { RegisterFrame.refl .bq2 s with
      delay := Sec_forall (fun _ _ => rfl) (fun _ _ => rfl) (fun h => absurd rfl h) }

theorem RegisterFrame.execWait {s t : State} (h : execWait s = .next t) : RegisterFrame .wait s t := by
  obtain ⟨hp, rfl⟩ | rfl | rfl := execWait_next h
  · exact { RegisterFrame.refl .wait s with delay := fun _ _ hw => absurd ⟨rfl, hp⟩ hw }
  · exact { RegisterFrame.refl .wait s with }
  · exact .refl .wait _

theorem exec_registerFrame {i : Instr} {s t : State} (h : exec i s = .next t) : RegisterFrame i s t := by
  have hrefl := RegisterFrame.refl i s
  cases i with
  | sample | freset => exact .of_proc_eq _ (exec_host_proc rfl h)
  | wait => exact .execWait h
  | pwr | classify | base =>
    obtain rfl := Host.Outcome.next.inj h
    exact { hrefl with }
  | bq0 =>
    obtain rfl := Host.Outcome.next.inj h
    exact .runSection .sec0 _ s
  | bq1 =>
    obtain rfl := Host.Outcome.next.inj h
    exact .runSection .sec1 _ s
  | bq2 =>
    obtain rfl := Host.Outcome.next.inj h
    exact .runSection .sec2 _ s
  | bpush =>
    obtain ⟨_, rfl⟩ := execBpush_next h
    exact { hrefl with full := fun hi => absurd rfl hi }
  | detect =>
    obtain rfl := Host.Outcome.next.inj h
    exact { hrefl with last := fun hi => absurd rfl hi }
  | emit =>
    obtain rfl := Host.Outcome.next.inj h
    exact { hrefl with evt := fun hi => absurd rfl hi }
  | status =>
    obtain rfl := Host.Outcome.next.inj h
    exact { hrefl with sts := fun hi => absurd rfl hi }

/-! ### What a step does to the configuration, the clock and PROC's registers -/

/-- PROC's registers change in a reset and in PROC's own turn alone (10_state.md R21). -/
theorem step_proc_cases {s t : State} (h : step s = .next t) :
    t.proc = s.proc ∨ s.nextTurn = .reset ∨
      ∃ i, s.nextTurn = .proc ∧ encode i = .stage s.proc.stage ∧ exec i s.popTurn = .next t := by
  rcases step_next_cases s t h with ⟨_, _, rfl⟩ | ⟨_, i, _, hd, hx⟩ | ⟨_, rfl, _⟩ | ⟨i, hturn, hd, hx⟩ | ⟨_, _, rfl⟩ |
    ⟨hturn, _⟩ | ⟨_, rfl⟩
  · exact .inl rfl
  · exact .inl (exec_host_proc (s := s.popTurn) (format_of_decodeBeat hd) hx)
  · exact .inl rfl
  · exact .inr (.inr ⟨i, hturn, decodeStage_ok _ i hd, hx⟩)
  · exact .inl rfl
  · exact .inr (.inl hturn)
  · exact .inl rfl

/-- Settles O49: no operation writes the configuration or the clock, nor does a step of the host but the clock's. -/
theorem configurationNeverChanges : Obligations.ConfigurationNeverChanges := by
  intro s t h
  rcases step_next_cases s t h with ⟨_, _, rfl⟩ | ⟨_, i, _, _, hx⟩ | ⟨_, rfl, _⟩ | ⟨i, _, _, hx⟩ | ⟨now, hturn, rfl⟩ |
    ⟨_, rfl⟩ | ⟨_, rfl⟩
  · exact ⟨rfl, fun _ => rfl⟩
  · exact (exec_cfg_clk hx).imp_right fun hclk _ => hclk
  · exact ⟨rfl, fun _ => rfl⟩
  · exact (exec_cfg_clk hx).imp_right fun hclk _ => hclk
  · exact ⟨rfl, fun hne => absurd hturn (hne now)⟩
  · exact ⟨rfl, fun _ => rfl⟩
  · exact ⟨rfl, fun _ => rfl⟩

theorem encode_instr (k : Sec) : encode k.instr = .stage (BitVec.ofNat 8 (0x12 + k.index)) := by
  cases k <;> rfl

/-- Settles O31: but for a reset, a delay line changes in PROC's turn, in its own section or in WAIT's reset arm. -/
theorem delayLinesAreWrittenOnlyByTheirSection : Obligations.DelayLinesAreWrittenOnlyByTheirSection := by
  intro s t k h hne
  rcases step_proc_cases h with hproc | hreset | ⟨i, hturn, hcode, hx⟩
  · exact absurd (congrArg (Proc.delay · k) hproc) hne
  · exact .inl hreset
  · refine .inr ⟨hturn, ?_⟩
    by_cases hk : i = k.instr
    · left
      subst hk
      rw [encode_instr] at hcode
      rw [← Code.stage.inj hcode]
      cases k <;> rfl
    · by_cases hw : i = .wait ∧ s.shared.frstPend = true
      · obtain ⟨rfl, hpend⟩ := hw
        exact .inr ⟨(Code.stage.inj hcode).symm, hpend⟩
      · exact absurd ((exec_registerFrame hx).delay k hk hw) hne

/-- `last` is written by an accepted DETECT alone, with the clock. -/
theorem exec_last_ne {i : Instr} {s t : State} (h : exec i s = .next t) (hne : t.proc.last ≠ s.proc.last) :
    i = .detect ∧ t.proc.ev = true ∧ t.proc.last = s.clk := by
  obtain rfl : i = .detect := by_contra fun hi => hne ((exec_registerFrame h).last hi)
  obtain rfl := Host.Outcome.next.inj h
  have hev : detects s.cfg s.clk s.proc = true := by_contra fun hev => hne (if_neg hev)
  exact ⟨rfl, hev, if_pos hev⟩

/-- No operation clears `full`. -/
theorem exec_full_of_full {i : Instr} {s t : State} (h : exec i s = .next t) (hf : s.proc.full = true) :
    t.proc.full = true := by
  by_cases hi : i = .bpush
  · subst hi
    obtain ⟨_, rfl⟩ := execBpush_next h
    simp [hf]
  · rw [(exec_registerFrame h).full hi, hf]

/-- Settles O38: `last` is written by an accepted DETECT alone, and no operation clears `full`. -/
theorem timestampAndFullFlagChangeOnlyWhereTheyMay : Obligations.TimestampAndFullFlagChangeOnlyWhereTheyMay := by
  intro s t h hnr
  rcases step_proc_cases h with hproc | hreset | ⟨i, hturn, hcode, hx⟩
  · exact ⟨fun hne => absurd (congrArg Proc.last hproc) hne, fun hf => by rw [hproc, hf]⟩
  · exact absurd hreset hnr
  · refine ⟨fun hne => ?_, exec_full_of_full (s := s.popTurn) hx⟩
    obtain ⟨rfl, hev, hlast⟩ := exec_last_ne hx hne
    exact ⟨hturn, (Code.stage.inj hcode).symm, hev, hlast⟩

/-- An operation leaves the event trace, or it is EMIT and appends one record. -/
theorem exec_evt {i : Instr} {s t : State} (h : exec i s = .next t) :
    t.proc.evt = s.proc.evt ∨ i = .emit ∧ ∃ r, t.proc.evt = s.proc.evt ++ [r] := by
  by_cases hi : i = .emit
  · subst hi
    obtain rfl := Host.Outcome.next.inj h
    exact .inr ⟨rfl, _, rfl⟩
  · exact .inl ((exec_registerFrame h).evt hi)

/-- An operation leaves the status trace, or it is STATUS and appends one record. -/
theorem exec_sts {i : Instr} {s t : State} (h : exec i s = .next t) :
    t.proc.sts = s.proc.sts ∨ i = .status ∧ ∃ r, t.proc.sts = s.proc.sts ++ [r] := by
  by_cases hi : i = .status
  · subst hi
    obtain rfl := Host.Outcome.next.inj h
    by_cases hdue : statusDue s.cfg s.proc = true
    · exact .inr ⟨rfl, _, if_pos hdue⟩
    · exact .inl (if_neg hdue)
  · exact .inl ((exec_registerFrame h).sts hi)

/-- Settles O43: EMIT and STATUS append at most one record, each to its own trace. -/
theorem tracesGrowByOneRecordAStep : Obligations.TracesGrowByOneRecordAStep := by
  intro s t h hnr
  rcases step_proc_cases h with hproc | hreset | ⟨i, hturn, hcode, hx⟩
  · exact ⟨.inl (congrArg Proc.evt hproc), .inl (congrArg Proc.sts hproc)⟩
  · exact absurd hreset hnr
  · constructor
    · refine (exec_evt hx).imp_right ?_
      rintro ⟨rfl, r, hr⟩
      exact ⟨hturn, (Code.stage.inj hcode).symm, r, hr⟩
    · refine (exec_sts hx).imp_right ?_
      rintro ⟨rfl, r, hr⟩
      exact ⟨hturn, (Code.stage.inj hcode).symm, r, hr⟩

end Sys2Proof.Machine

/-!
PROOFS. Single steps (20_memory.md R59), and the values and invariants after reset (10_state.md R36, R37).
-/

namespace Sys2Proof.Machine

/-! ### Single steps -/

theorem step_of_script_cons {s : State} {u : Turn} {rest : List Turn} (h : s.script = u :: rest) :
    step s = takeTurn u { s with script := rest } := by
  unfold step State.nextTurn State.popTurn
  rw [h]
  rfl

theorem step_of_script_nil {s : State} (h : s.script = []) : step s = takeTurn .proc s := by
  obtain ⟨_, _, _, _, _, script⟩ := s
  obtain rfl : script = [] := h
  rfl

/-- Settles O16: the turn taken is the first of the schedule, or PROC's, and its code is the operation's. -/
theorem stepRunsTheDecodedOperation : Obligations.StepRunsTheDecodedOperation := by
  intro s i rest
  refine ⟨fun cmd hs hd => ?_, fun hs hd => ?_, fun hs hd => ?_⟩
  · rw [step_of_script_cons hs]
    exact runCode_ok (.beat cmd) i _ hd
  · rw [step_of_script_cons hs]
    exact runCode_ok (.stage s.proc.stage) i _ hd
  · rw [step_of_script_nil hs]
    exact runCode_ok (.stage s.proc.stage) i _ hd

/-- Settles O18: the turns of the host are the updates of the state they name. -/
theorem hostStepsDoWhatTheySay : Obligations.HostStepsDoWhatTheySay :=
  fun _ _ => ⟨fun _ => step_of_script_cons, step_of_script_cons, step_of_script_cons⟩

/-! ### After reset (10_state.md R36, R37) -/

/-- Settles O19: an item is read off the state, a channel's or a section's for each of them. -/
theorem resetStateHasTheTabledValues : Obligations.ResetStateHasTheTabledValues :=
  ⟨Chan_forall ⟨rfl, rfl, rfl⟩ ⟨rfl, rfl, rfl⟩, rfl, rfl, rfl, rfl, rfl, rfl,
    Sec_forall ⟨rfl, rfl, rfl⟩ ⟨rfl, rfl, rfl⟩ ⟨rfl, rfl, rfl⟩, Memory_read_nil,
    rfl, rfl, rfl, rfl, rfl, rfl, rfl, rfl, rfl, rfl, rfl, rfl, rfl, rfl⟩

/-- The categories of a well-formed configuration's table are above the built-in ones (00_scope.md R6). -/
theorem Cfg_wf_devCatsOk {c : Cfg} (h : c.wf = true) : devCatsOk c.devTab = true := by
  obtain ⟨_, _, _, _, _, _, _, hcats, _⟩ := (Cfg_wf_iff c).mp h
  exact List.all_eq_true.mpr fun e he => decide_eq_true (hcats e he)

theorem Cfg_build_wf : Config.build.wf = true := by
  have hd : Config.build.decim = 2000 := rfl
  have htab : Config.build.tableOk = true := (Bool.and_eq_true _ _).mpr Config_build_tableOk
  unfold Cfg.wf Cfg.decimOk
  rw [htab, hd]
  decide

/-- The core's state after a reset meets the invariants, whatever it was before. -/
theorem CoreInv_resetCore {s : State} (h : s.cfg.wf = true) : CoreInv s.resetCore := by
  obtain ⟨_, _, _, hdecim, _, hring, _⟩ := (Cfg_wf_iff _).mp h
  exact
    { cfgOk := h
      countLe := Chan_forall (Nat.zero_le _) (Nat.zero_le _)
      openPeriod := fun ⟨hfull, _⟩ => Nat.ne_of_lt hdecim hfull
      curLt := hring
      stageLegal := rfl
      scntLt := lt_max_of_lt_right Nat.zero_lt_one
      powerSign := show signOf posZero = false by decide
      bufWf := rfl
      bufWithin := rfl }

theorem EventInv_resetCore {s : State} (h : devCatsOk s.cfg.devTab = true) : EventInv s.resetCore :=
  { catsOk := h
    stageLegal := rfl
    spaced := rfl
    records := fun _ hr => nomatch hr
    settled := fun _ _ => rfl
    pending := fun h => absurd h (by simp [Proc.reset])
    onPath := fun h => absurd h (by simp [Proc.reset])
    emitPath := fun h => absurd h (by simp [Proc.reset]) }

/-- Power-up is a reset of the core: it starts with every item at its reset value. -/
theorem State_initial_resetCore (c : Cfg) (t : Time) : (State.initial c t).resetCore = State.initial c t := rfl

/-- Settles O44: power-up is a reset of a well-formed configuration, and so is the device's own. -/
theorem coreInvariantHoldsAtReset : Obligations.CoreInvariantHoldsAtReset :=
  have hinit (c : Cfg) (t : Time) (h : c.wf = true) : CoreInv (State.initial c t) :=
    State_initial_resetCore c t ▸ CoreInv_resetCore h
  ⟨hinit _ _ Cfg_build_wf, hinit⟩

/-- Settles O47: as for the invariants of the core. -/
theorem eventInvariantHoldsAtReset : Obligations.EventInvariantHoldsAtReset :=
  have hinit (c : Cfg) (t : Time) (h : c.wf = true) : EventInv (State.initial c t) :=
    State_initial_resetCore c t ▸ EventInv_resetCore (Cfg_wf_devCatsOk h)
  ⟨hinit _ _ Cfg_build_wf, hinit⟩

/-! ### Every step keeps the invariants of the core -/

theorem countFull_iff (c : Cfg) (a : ChanAcc) : countFull c a = true ↔ a.n.toNat = c.decim := beq_iff_eq

theorem periodComplete_iff (c : Cfg) (a : Acq) :
    periodComplete c a = true ↔ (a.chan .ch0).n.toNat = c.decim ∧ (a.chan .ch1).n.toNat = c.decim := by
  unfold periodComplete
  rw [Bool.and_eq_true, countFull_iff, countFull_iff]
  rfl

theorem toNat_add_one_le (n : Count) : (n + 1#32).toNat ≤ n.toNat + 1 := by
  rw [BitVec.toNat_add]
  exact Nat.mod_le _ _

theorem stageOk_stageAfterDetect (ev on : Bool) : stageOk (stageAfterDetect ev on) = true := by
  cases ev <;> cases on <;> rfl

section CoreInv

variable {s t : State} (h : CoreInv s)
include h

theorem CoreInv.decim_pos : 0 < s.cfg.decim := by
  obtain ⟨_, _, _, hdecim, _⟩ := (Cfg_wf_iff _).mp h.cfgOk
  exact hdecim

/-- A sample is accepted while its channel's count is below `D`, so the new count is at most `D`; where both counts have
come to `D`, a fresh period begins (40_decimator.md R90, R91). -/
theorem CoreInv.acceptSample {c : Chan} (hroom : countFull s.cfg (s.acq.chan c) = false) (raw : Word) :
    CoreInv (acceptSample c raw s) := by
  have hadd : ((s.acq.chan c).add (s.acqNan 0) raw).n.toNat ≤ s.cfg.decim := by
    have hle := h.countLe c
    have hne := beq_eq_false_iff_ne.mp hroom
    exact (toNat_add_one_le _).trans (by omega)
  have hcount : ∀ k, ((s.acq.setChan c ((s.acq.chan c).add (s.acqNan 0) raw)).chan k).n.toNat ≤ s.cfg.decim := by
    cases c with
    | ch0 => exact Chan_forall hadd (h.countLe .ch1)
    | ch1 => exact Chan_forall (h.countLe .ch0) hadd
  unfold Machine.acceptSample
  dsimp only
  split
  next =>
    exact { h with
      countLe := Chan_forall (Nat.zero_le _) (Nat.zero_le _)
      openPeriod := fun ⟨hfull, _⟩ => h.decim_pos.ne hfull }
  next hopen =>
    exact { h with
      countLe := hcount
      openPeriod := fun hfull => hopen ((periodComplete_iff _ _).mpr hfull) }

/-- The cursor after a push is inside the ring: it wraps after the last slot (43_baseline.md R120). -/
theorem CoreInv.nextCursor_lt :
    (if cursorLast s.cfg s.proc then 0#32 else s.proc.cur + 1#32).toNat < s.cfg.ringSize := by
  have hlt := h.curLt
  split
  next => exact Nat.zero_lt_of_lt hlt
  next hlast =>
    have hne : s.proc.cur.toNat ≠ s.cfg.ringSize - 1 := fun he => hlast (beq_iff_eq.mpr he)
    exact (toNat_add_one_le _).trans_lt (by omega)

/-- The status count stays below the interval: it starts anew when it would come to it (46_sequencer_io.md R153). -/
theorem CoreInv.nextScnt_lt :
    (if s.cfg.statusInterval = 0#32 then s.proc.scnt
      else if statusDue s.cfg s.proc then 0#32
      else s.proc.scnt + 1#32).toNat < max s.cfg.statusInterval.toNat 1 := by
  have hlt := h.scntLt
  split
  next => exact hlt
  next hon =>
    split
    next => exact lt_max_of_lt_right Nat.zero_lt_one
    next hdue =>
      have hne : s.proc.scnt + 1#32 ≠ s.cfg.statusInterval := by simpa [statusDue, hon] using hdue
      bv_omega

/-- Each operation keeps the invariants. -/
theorem CoreInv.exec {i : Instr} (hx : exec i s = .next t) : CoreInv t := by
  cases i with
  | sample ch raw ts =>
    obtain ⟨_, rfl⟩ | ⟨c, _, hroom, rfl⟩ := execSample_next (ts := ts) hx
    · exact h
    · exact h.acceptSample hroom raw
  | freset =>
    obtain rfl := Host.Outcome.next.inj hx
    exact { h with }
  | wait =>
    obtain ⟨_, rfl⟩ | rfl | rfl := execWait_next hx
    · exact { h with stageLegal := rfl }
    · exact { h with stageLegal := rfl }
    · exact h
  | pwr =>
    obtain rfl := Host.Outcome.next.inj hx
    exact { h with stageLegal := rfl, powerSign := signOf_fabs _ }
  | bpush =>
    obtain ⟨_, rfl⟩ := execBpush_next hx
    exact { h with
      curLt := h.nextCursor_lt
      stageLegal := rfl
      bufWf := Memory_wf_write _ _ _ h.bufWf
      bufWithin := Memory_within_write _ _ _ _ h.bufWithin h.curLt }
  | detect =>
    obtain rfl := Host.Outcome.next.inj hx
    exact { h with stageLegal := stageOk_stageAfterDetect _ _ }
  | status =>
    obtain rfl := Host.Outcome.next.inj hx
    exact { h with stageLegal := rfl, scntLt := h.nextScnt_lt }
  | bq0 | bq1 | bq2 | classify | emit | base =>
    obtain rfl := Host.Outcome.next.inj hx
    exact { h with stageLegal := rfl }

end CoreInv

/-- Settles O45: each operation keeps the invariants, a reset brings them about, and no other turn touches the core. -/
theorem coreInvariantIsKept : Obligations.CoreInvariantIsKept := by
  intro s t h hstep
  have hpop : CoreInv s.popTurn := { h with }
  rcases step_next_cases s t hstep with ⟨_, _, rfl⟩ | ⟨_, _, _, _, hx⟩ | ⟨_, rfl, _⟩ | ⟨_, _, _, hx⟩ | ⟨_, _, rfl⟩ |
    ⟨_, rfl⟩ | ⟨_, rfl⟩
  · exact hpop
  · exact hpop.exec hx
  · exact hpop
  · exact hpop.exec hx
  · exact { hpop with }
  · exact CoreInv_resetCore h.cfgOk
  · exact hpop

end Sys2Proof.Machine

/-!
PROOFS. The memory spaces and the hand-off (20_memory.md): what the read-only spaces COEF and DEVTAB hold (R52, R53), a
push with no slot under the cursor (R56), and what raises and clears `ready` (R60, R63).
-/

namespace Sys2Proof.Machine

/-! ### The read-only spaces (20_memory.md R52, R53) -/

theorem coefWord_outside (c : Coefs) {k : Nat} (hk : 5 ≤ k) : coefWord c k = none := by
  unfold coefWord
  rw [if_neg (by omega), if_neg (by omega), if_neg (by omega), if_neg (by omega), if_neg (by omega)]

/-- The index map of COEF: five words a section, in the order of the sections. -/
theorem coefRead_section (c : Cfg) (s : Sec) {k : Nat} (hk : k < 5) :
    coefRead c (5 * s.index + k) = coefWord (sectionCoefs c s) k := by
  unfold coefRead
  cases s with
  | sec0 =>
    rw [show 5 * Sec.index .sec0 + k = k from Nat.zero_add k, if_pos hk]
    rfl
  | sec1 =>
    rw [show 5 * Sec.index .sec1 + k = 5 + k from rfl, if_neg (by omega), if_pos (by omega), Nat.add_sub_cancel_left]
    rfl
  | sec2 =>
    rw [show 5 * Sec.index .sec2 + k = 10 + k from rfl, if_neg (by omega), if_neg (by omega), Nat.add_sub_cancel_left]
    rfl

theorem coefRead_outside (c : Cfg) {i : Nat} (hi : 15 ≤ i) : coefRead c i = none := by
  unfold coefRead
  rw [if_neg (by omega), if_neg (by omega)]
  exact coefWord_outside _ (by omega)

/-- Settles O7: the words of COEF by its index map, and the entries of DEVTAB by those of the table. -/
theorem readOnlySpacesHoldTheConfiguration : Obligations.ReadOnlySpacesHoldTheConfiguration := by
  intro c
  refine ⟨fun s => ?_, fun i hi => coefRead_outside c hi, fun i e he => ?_, fun i hi => ?_⟩
  · have hword (k : Nat) (hk : k < 5) := coefRead_section c s hk
    exact ⟨hword 0 (by decide), hword 1 (by decide), hword 2 (by decide), hword 3 (by decide), hword 4 (by decide)⟩
  · exact congrArg (Option.map packEntry) he
  · exact congrArg (Option.map packEntry) (List.getElem?_eq_none hi)

/-! ### A push outside the ring (20_memory.md R56) -/

/-- Settles O33: BPUSH stops or finds its cursor inside BUF. -/
theorem pushOutsideTheRingStops : Obligations.PushOutsideTheRingStops := by
  intro s hout
  rcases execBpush_cases s with ⟨_, hstop⟩ | ⟨hok, _⟩
  · exact hstop
  · have hin : s.proc.cur.toNat < s.cfg.ringSize := of_decide_eq_true hok
    exact absurd hout (Nat.not_le.mpr hin)

/-! ### The hand-off (20_memory.md R60, R63) -/

theorem beatOp_of_decodeBeat_sample {cmd : Beat} {ch : Code8} {raw : Word} {ts : Time}
    (h : decodeBeat cmd = .ok (.sample ch raw ts)) : beatOp cmd = 0x01#8 := by
  rcases decodeBeat_cases cmd with ⟨hop, _⟩ | ⟨_, hd⟩ | ⟨_, _, hd⟩
  · exact hop
  · cases hd.symm.trans h
  · cases hd.symm.trans h

/-- An accepted sample leaves the shared state, or the emission sets `ready` and clears both accumulators. -/
theorem acceptSample_handoff (c : Chan) (raw : Word) (s : State) :
    (acceptSample c raw s).shared = s.shared ∨
    ((acceptSample c raw s).shared.ready = true ∧
      (acceptSample c raw s).acq.acc0 = ChanAcc.zero ∧ (acceptSample c raw s).acq.acc1 = ChanAcc.zero) := by
  unfold acceptSample
  dsimp only
  split
  next => exact .inr ⟨rfl, rfl, rfl⟩
  next => exact .inl rfl

/-- An operation leaves `ready`, or it is the SAMPLE that emits the pair, or WAIT's latch arm. -/
theorem exec_ready_cases {i : Instr} {s t : State} (h : exec i s = .next t) :
    t.shared.ready = s.shared.ready ∨
    ((∃ ch raw ts, i = .sample ch raw ts) ∧ t.shared.ready = true ∧
      t.acq.acc0 = ChanAcc.zero ∧ t.acq.acc1 = ChanAcc.zero) ∨
    (i = .wait ∧ s.shared.frstPend = false ∧ t = latchPair s) := by
  cases i with
  | sample ch raw ts =>
    obtain ⟨_, rfl⟩ | ⟨c, _, _, rfl⟩ := execSample_next (ts := ts) h
    · exact .inl rfl
    · rcases acceptSample_handoff c raw s with hsame | hemit
      · exact .inl (congrArg Shared.ready hsame)
      · exact .inr (.inl ⟨⟨ch, raw, ts, rfl⟩, hemit⟩)
  | wait =>
    rcases execWait_cases s with ⟨_, hx⟩ | ⟨hpend, _, hx⟩ | ⟨_, _, hx⟩
    · obtain rfl := Host.Outcome.next.inj (hx.symm.trans h)
      exact .inl rfl
    · exact .inr (.inr ⟨rfl, hpend, (Host.Outcome.next.inj (hx.symm.trans h)).symm⟩)
    · obtain rfl := Host.Outcome.next.inj (hx.symm.trans h)
      exact .inl rfl
  | bpush =>
    obtain ⟨_, rfl⟩ := execBpush_next h
    exact .inl rfl
  | freset | pwr | bq0 | bq1 | bq2 | detect | classify | emit | base | status =>
    obtain rfl := Host.Outcome.next.inj h
    exact .inl rfl

/-- But for a reset, a step leaves `ready`, or it is the beat of a SAMPLE that emits the pair, or PROC's turn in WAIT's
latch arm. -/
theorem step_ready_cases {s t : State} (h : step s = .next t) (hnr : s.nextTurn ≠ .reset) :
    t.shared.ready = s.shared.ready ∨
    (t.shared.ready = true ∧ ∃ cmd, s.nextTurn = .beat cmd ∧ beatOp cmd = 0x01#8 ∧
      t.acq.acc0 = ChanAcc.zero ∧ t.acq.acc1 = ChanAcc.zero) ∨
    (s.nextTurn = .proc ∧ s.proc.stage = 0x10#8 ∧ s.shared.frstPend = false ∧ t = latchPair s.popTurn) := by
  rcases step_next_cases s t h with ⟨_, _, rfl⟩ | ⟨cmd, i, hturn, hd, hx⟩ | ⟨_, rfl, _⟩ | ⟨i, hturn, hd, hx⟩ |
    ⟨_, _, rfl⟩ | ⟨hreset, _⟩ | ⟨_, rfl⟩
  · exact .inl rfl
  · rcases exec_ready_cases hx with hsame | ⟨⟨ch, raw, ts, rfl⟩, hready, hacc⟩ | ⟨rfl, _⟩
    · exact .inl hsame
    · exact .inr (.inl ⟨hready, cmd, hturn, beatOp_of_decodeBeat_sample hd, hacc⟩)
    · cases format_of_decodeBeat hd
  · exact .inl rfl
  · have hcode := decodeStage_ok _ i hd
    rcases exec_ready_cases hx with hsame | ⟨⟨ch, raw, ts, rfl⟩, _⟩ | ⟨rfl, hpend, rfl⟩
    · exact .inl hsame
    · cases hcode
    · exact .inr (.inr ⟨hturn, (Code.stage.inj hcode).symm, hpend, rfl⟩)
  · exact .inl rfl
  · exact absurd hreset hnr
  · exact .inl rfl

/-- Settles O52: the emission leaves `ready` set and the latch leaves it clear, so each change has one cause. -/
theorem readyIsRaisedByEmissionAndClearedByLatch : Obligations.ReadyIsRaisedByEmissionAndClearedByLatch := by
  intro s t h hnr
  rcases step_ready_cases h hnr with hsame | ⟨hready, hemit⟩ | ⟨hturn, hstage, hpend, rfl⟩
  · rw [hsame]
    exact ⟨fun h0 h1 => absurd (h0.symm.trans h1) Bool.false_ne_true,
      fun h1 h0 => absurd (h0.symm.trans h1) Bool.false_ne_true⟩
  · exact ⟨fun _ _ => hemit, fun _ h0 => absurd (h0.symm.trans hready) Bool.false_ne_true⟩
  · exact ⟨fun _ h1 => absurd h1 Bool.false_ne_true, fun _ _ => ⟨hturn, hstage, hpend, rfl, rfl, rfl, rfl⟩⟩

end Sys2Proof.Machine

/-!
PROOFS. The encodings (30_encoding.md): the fields of a beat, which are the whole beat (R71), the decoder and the
encoder of both formats (R73, R74, R80, R81), the opcode table (R86), and the bits of the records and of a table entry
(R78, R79, R84).
-/

namespace Sys2Proof.Machine

/-! ### Fields of a bit vector -/

/-- A field and all the bits below it, written one after the other. -/
theorem append_extractLsb'_low {w : Nat} (b : BitVec w) (k n : Nat) :
    b.extractLsb' k n ++ b.extractLsb' 0 k = b.extractLsb' 0 (n + k) :=
  BitVec.extractLsb'_append_extractLsb'_eq_extractLsb' (Nat.zero_add k).symm

theorem ofBool_getLsbD_eq_extractLsb' {w : Nat} (b : BitVec w) (i : Nat) :
    BitVec.ofBool (b.getLsbD i) = b.extractLsb' i 1 := by
  ext j hj
  obtain rfl : j = 0 := Nat.lt_one_iff.mp hj
  simp

/-- A bit of a vector is its field of width one. -/
theorem getLsbD_eq_iff_extractLsb'_eq {w : Nat} (b : BitVec w) (i : Nat) (d : Bool) :
    b.getLsbD i = d ↔ b.extractLsb' i 1 = BitVec.ofBool d := by
  rw [← ofBool_getLsbD_eq_extractLsb', BitVec.ofBool_eq_iff_eq]

/-! ### The fields of a beat (30_encoding.md R71) -/

theorem beatOp_packBeat (op ch : Code8) (raw : Word) (ts : Time) : beatOp (packBeat op ch raw ts) = op :=
  BitVec.extractLsb'_append_eq_left

theorem beatCh_packBeat (op ch : Code8) (raw : Word) (ts : Time) : beatCh (packBeat op ch raw ts) = ch := by
  simp (disch := decide) only [beatCh, packBeat, BitVec.extractLsb'_append_eq_of_add_le,
    BitVec.extractLsb'_append_eq_left]

theorem beatRaw_packBeat (op ch : Code8) (raw : Word) (ts : Time) : beatRaw (packBeat op ch raw ts) = raw := by
  simp (disch := decide) only [beatRaw, packBeat, BitVec.extractLsb'_append_eq_of_add_le,
    BitVec.extractLsb'_append_eq_left]

theorem beatTs_packBeat (op ch : Code8) (raw : Word) (ts : Time) : beatTs (packBeat op ch raw ts) = ts := by
  simp (disch := decide) only [beatTs, packBeat, BitVec.extractLsb'_append_eq_of_add_le, BitVec.extractLsb'_eq_self]

/-- The four fields are all of a beat. -/
theorem packBeat_fields (cmd : Beat) : packBeat (beatOp cmd) (beatCh cmd) (beatRaw cmd) (beatTs cmd) = cmd := by
  rw [packBeat, beatOp, beatCh, beatRaw, beatTs, append_extractLsb'_low, append_extractLsb'_low,
    append_extractLsb'_low]
  exact BitVec.extractLsb'_eq_self

/-! ### The decoder and the encoder (30_encoding.md R73, R74) -/

/-- Settles O2: the fields of the packed beat are the four it is made of. -/
theorem beatsDecodeByOpcode : Obligations.BeatsDecodeByOpcode := by
  intro op ch raw ts
  change decodeBeat (packBeat op ch raw ts) = _
  simp only [decodeBeat, beatOp_packBeat, beatCh_packBeat, beatRaw_packBeat, beatTs_packBeat]

theorem exists_decodeBeat_iff (cmd : Beat) :
    (∃ i, decodeBeat cmd = .ok i) ↔ beatOp cmd = 0x01#8 ∨ beatOp cmd = 0x02#8 := by
  rcases decodeBeat_cases cmd with ⟨hop, hd⟩ | ⟨hop, hd⟩ | ⟨h1, h2, hd⟩
  · exact iff_of_true ⟨_, hd⟩ (.inl hop)
  · exact iff_of_true ⟨_, hd⟩ (.inr hop)
  · exact iff_of_false (fun ⟨i, hi⟩ => by cases hd.symm.trans hi) (not_or.mpr ⟨h1, h2⟩)

theorem decode_encode (i : Instr) : decode (encode i) = .ok i := by
  cases i with
  | sample ch raw ts => exact (beatsDecodeByOpcode 0x01#8 ch raw ts).trans (if_pos rfl)
  | freset => exact beatsDecodeByOpcode 0x02#8 0#8 0#32 0#64
  | wait | pwr | bq0 | bq1 | bq2 | bpush | detect | classify | emit | base | status => exact decodeStage_encode _ _ rfl

/-- A beat is the only code of the SAMPLE it decodes to: the four fields are all of it. -/
theorem encode_of_decodeBeat {cmd : Beat} {i : Instr} (h : decodeBeat cmd = .ok i) (hi : i ≠ .freset) :
    encode i = .beat cmd := by
  rcases decodeBeat_cases cmd with ⟨hop, hd⟩ | ⟨_, hd⟩ | ⟨_, _, hd⟩
  · obtain rfl := Except.ok.inj (hd.symm.trans h)
    rw [encode, ← hop, packBeat_fields]
  · exact absurd (Except.ok.inj (hd.symm.trans h)).symm hi
  · cases hd.symm.trans h

/-- Settles O1: decoding inverts encoding, and but for FRESET encoding inverts decoding. -/
theorem decodeInvertsEncode : Obligations.DecodeInvertsEncode :=
  ⟨decode_encode, fun _ _ => encode_of_decodeBeat, decodeStage_ok⟩

/-- Settles O3: each of the eleven codes is its operation's, and a code outside their range is no legal one. -/
theorem stageCodesDecode : Obligations.StageCodesDecode := by
  refine ⟨rfl, rfl, rfl, rfl, rfl, rfl, rfl, rfl, rfl, rfl, rfl, fun code hout => ?_⟩
  rcases decodeStage_cases code with ⟨_, _, _, hok⟩ | ⟨hd, _⟩
  · simp only [stageOk, Bool.and_eq_true, decide_eq_true_eq] at hok
    omega
  · exact hd

/-! ### Malformed beats (30_encoding.md R80) -/

theorem channelOf_eq_none_of_le {ch : Code8} (h : 0x02 ≤ ch.toNat) : channelOf ch = none := by
  rcases channelOf_cases ch with ⟨c, _, rfl, _⟩ | ⟨hnone, _⟩
  · cases c <;> exact absurd h (by decide)
  · exact hnone

/-- Settles O17: a reserved beat decodes to no operation, and a malformed channel names no accumulator. -/
theorem malformedBeatsChangeNothing : Obligations.MalformedBeatsChangeNothing := by
  intro s cmd rest hs
  rw [step_of_script_cons hs]
  refine ⟨fun h1 h2 => ?_, fun h1 hch => ?_⟩
  · rcases decodeBeat_cases cmd with ⟨hop, _⟩ | ⟨hop, _⟩ | ⟨_, _, hd⟩
    · exact absurd hop h1
    · exact absurd hop h2
    · exact runCode_error (.beat cmd) _ _ hd
  · have hd : decode (.beat cmd) = .ok (.sample (beatCh cmd) (beatRaw cmd) (beatTs cmd)) := if_pos h1
    calc runCode (.beat cmd) { s with script := rest }
      _ = execSample (beatCh cmd) (beatRaw cmd) (beatTs cmd) { s with script := rest } := runCode_ok _ _ _ hd
      _ = .next { s with script := rest } := by rw [execSample, channelOf_eq_none_of_le hch]

/-! ### The opcode table (30_encoding.md R86) -/

/-- The row a code fits, where spec/opcode_table.json has one for it: its format's width, and of its bits the operation
code or the stage value. -/
def rowOfCode : Code → TableRow
  | .beat cmd => ⟨112, (beatOp cmd).toNat * 2 ^ 104, 0xFF00000000000000000000000000⟩
  | .stage code => ⟨8, code.toNat, 0xFF⟩

theorem beat_masked (cmd : Beat) :
    cmd.toNat &&& 0xFF00000000000000000000000000 = (beatOp cmd).toNat * 2 ^ 104 := by
  have h := Laws.fits_beat (beatOp cmd) (beatCh cmd) (beatRaw cmd) (beatTs cmd)
  rwa [packBeat_fields] at h

theorem stage_masked (code : Code8) : code.toNat &&& 0xFF = code.toNat :=
  (Nat.and_two_pow_sub_one_eq_mod code.toNat 8).trans (Nat.mod_eq_of_lt code.isLt)

theorem fits_rowOfCode_iff (c d : Code) : (rowOfCode d).fits c = true ↔ rowOfCode c = rowOfCode d := by
  cases c with
  | beat cmd =>
    cases d with
    | beat cmd' => simp [rowOfCode, TableRow.fits, Code.width, Code.toNat, beat_masked]
    | stage code' => simp [rowOfCode, TableRow.fits, Code.width]
  | stage code =>
    cases d with
    | beat cmd' => simp [rowOfCode, TableRow.fits, Code.width]
    | stage code' => simp [rowOfCode, TableRow.fits, Code.width, Code.toNat, stage_masked]

/-- An operation's row is the row of each code that decodes to it. -/
theorem tableRow_of_decode {c : Code} {i : Instr} (h : decode c = .ok i) : tableRow i = rowOfCode c := by
  cases c with
  | beat cmd =>
    rcases decodeBeat_cases cmd with ⟨hop, hd⟩ | ⟨hop, hd⟩ | ⟨_, _, hd⟩
    · obtain rfl := Except.ok.inj (hd.symm.trans h)
      rw [rowOfCode, hop]
      rfl
    · obtain rfl := Except.ok.inj (hd.symm.trans h)
      rw [rowOfCode, hop]
      rfl
    · cases hd.symm.trans h
  | stage code =>
    have hcode := decodeStage_ok code i h
    cases i with
    | sample | freset => cases hcode
    | wait | pwr | bq0 | bq1 | bq2 | bpush | detect | classify | emit | base | status =>
      cases hcode
      rfl

/-- Whether a code decodes to an operation is settled by its row. -/
theorem decode_of_rowOfCode_eq {c d : Code} {j : Instr} (hrow : rowOfCode c = rowOfCode d) (h : decode d = .ok j) :
    ∃ i, decode c = .ok i := by
  cases c with
  | stage code =>
    cases d with
    | beat _ => cases congrArg TableRow.width hrow
    | stage code' =>
      obtain rfl : code = code' := BitVec.eq_of_toNat_eq (congrArg TableRow.pattern hrow)
      exact ⟨j, h⟩
  | beat cmd =>
    cases d with
    | stage _ => cases congrArg TableRow.width hrow
    | beat cmd' =>
      have hop : beatOp cmd = beatOp cmd' :=
        BitVec.eq_of_toNat_eq (Nat.eq_of_mul_eq_mul_right (by decide) (congrArg TableRow.pattern hrow))
      have hknown := (exists_decodeBeat_iff cmd').mp ⟨j, h⟩
      rw [← hop] at hknown
      exact (exists_decodeBeat_iff cmd).mpr hknown

/-- Settles O4: both sides say that the code's row is the operation's. -/
theorem decoderAgreesWithOpcodeTable : Obligations.DecoderAgreesWithOpcodeTable := by
  intro c j
  rw [tableRow_of_decode (decode_encode j), fits_rowOfCode_iff]
  constructor
  · intro hrow
    obtain ⟨i, hi⟩ := decode_of_rowOfCode_eq hrow (decode_encode j)
    exact ⟨i, hi, (tableRow_of_decode hi).trans hrow⟩
  · rintro ⟨i, hi, hrow⟩
    exact (tableRow_of_decode hi).symm.trans hrow

/-- Settles O5: the decoder's answer on each of the six words. -/
theorem tableWordsDecode : Obligations.TableWordsDecode :=
  ⟨by decide, by decide, by decide, by decide, by decide, by decide⟩

/-! ### The records and the table entries (30_encoding.md R78, R79, R84) -/

theorem packEvent_fields (r : EventRecord) :
    (packEvent r).extractLsb' 73 64 = r.ts ∧ (packEvent r).extractLsb' 41 32 = r.delta ∧
    (packEvent r).getLsbD 40 = r.dir ∧ (packEvent r).extractLsb' 32 8 = r.cat ∧
    (packEvent r).extractLsb' 0 32 = r.power := by
  simp (disch := decide) only [packEvent, getLsbD_eq_iff_extractLsb'_eq, BitVec.extractLsb'_append_eq_of_add_le,
    BitVec.extractLsb'_append_eq_left, BitVec.extractLsb'_eq_self, and_self]

theorem packEvent_unpackEvent (b : BitVec 137) : packEvent (unpackEvent b) = b := by
  rw [packEvent, unpackEvent, ofBool_getLsbD_eq_extractLsb', append_extractLsb'_low, append_extractLsb'_low,
    append_extractLsb'_low, append_extractLsb'_low]
  exact BitVec.extractLsb'_eq_self

theorem packStatus_fields (r : StatusRecord) :
    (packStatus r).extractLsb' 65 32 = r.power ∧ (packStatus r).getLsbD 64 = r.bvalid ∧
    (packStatus r).extractLsb' 32 32 = r.base ∧ (packStatus r).extractLsb' 0 32 = r.filt := by
  simp (disch := decide) only [packStatus, getLsbD_eq_iff_extractLsb'_eq, BitVec.extractLsb'_append_eq_of_add_le,
    BitVec.extractLsb'_append_eq_left, BitVec.extractLsb'_eq_self, and_self]

theorem packStatus_unpackStatus (b : BitVec 97) : packStatus (unpackStatus b) = b := by
  rw [packStatus, unpackStatus, ofBool_getLsbD_eq_extractLsb', append_extractLsb'_low, append_extractLsb'_low,
    append_extractLsb'_low]
  exact BitVec.extractLsb'_eq_self

theorem packEntry_fields (e : DevRange) :
    (packEntry e).extractLsb' 64 8 = e.cat ∧ (packEntry e).extractLsb' 32 32 = e.min ∧
    (packEntry e).extractLsb' 0 32 = e.max := by
  simp (disch := decide) only [packEntry, BitVec.extractLsb'_append_eq_of_add_le, BitVec.extractLsb'_append_eq_left,
    BitVec.extractLsb'_eq_self, and_self]

/-- Settles O6: each field is a piece of the concatenation, and the pieces are all the bits. -/
theorem recordFieldsStandAtTheirBits : Obligations.RecordFieldsStandAtTheirBits :=
  ⟨packEvent_fields, packEvent_unpackEvent, packStatus_fields, packStatus_unpackStatus, packEntry_fields⟩

end Sys2Proof.Machine

/-!
PROOFS. The sample accumulator (40_decimator.md): the rule of SAMPLE (R90, R91), and a whole decimation period, whose
pair is the two means (R93).
-/

namespace Sys2Proof.Machine

theorem Chan_forall_other {P : Chan → Prop} (c : Chan) (hsame : P c) (hother : P c.other) : ∀ k, P k := by
  cases c with
  | ch0 => exact Chan_forall hsame hother
  | ch1 => exact Chan_forall hother hsame

/-! ### One accepted sample (40_decimator.md R90, R91) -/

/-- ACQ's registers after an accepted sample, before the pair emission that may follow it (40_decimator.md R90). -/
def sampledAcq (c : Chan) (raw : Word) (s : State) : Acq :=
  { s.acq.setChan c ((s.acq.chan c).add (s.acqNan 0) raw) with draws := s.acq.draws + 3 }

section AcceptedSample

variable (c : Chan) (raw : Word) (s : State)

@[simp] theorem sampledAcq_chan : (sampledAcq c raw s).chan c = (s.acq.chan c).add (s.acqNan 0) raw := by
  cases c <;> rfl

@[simp] theorem sampledAcq_chan_other : (sampledAcq c raw s).chan c.other = s.acq.chan c.other := by
  cases c <;> rfl

@[simp] theorem sampledAcq_draws : (sampledAcq c raw s).draws = s.acq.draws + 3 := rfl

/-- The accepted sample in its two parts: the accumulation, and the pair emission where it completes the period. -/
theorem acceptSample_eq :
    acceptSample c raw s =
      if periodComplete s.cfg (sampledAcq c raw s)
      then emitPair (s.setAcq (sampledAcq c raw s)) (s.acqNan 1) (s.acqNan 2)
      else s.setAcq (sampledAcq c raw s) := rfl

variable {c raw s}

theorem acceptSample_of_complete (h : periodComplete s.cfg (sampledAcq c raw s) = true) :
    acceptSample c raw s = emitPair (s.setAcq (sampledAcq c raw s)) (s.acqNan 1) (s.acqNan 2) := by
  rw [acceptSample_eq, if_pos h]

theorem acceptSample_of_open (h : ¬ periodComplete s.cfg (sampledAcq c raw s) = true) :
    acceptSample c raw s = s.setAcq (sampledAcq c raw s) := by
  rw [acceptSample_eq, if_neg h]

end AcceptedSample

theorem Cfg_wf_decim_lt {c : Cfg} (h : c.wf = true) : c.decim < 2 ^ 32 := by
  obtain ⟨_, _, _, _, hdecim, _⟩ := (Cfg_wf_iff c).mp h
  exact hdecim

theorem Cfg_wf_decim_pos {c : Cfg} (h : c.wf = true) : 0 < c.decim := by
  obtain ⟨_, _, _, hdecim, _⟩ := (Cfg_wf_iff c).mp h
  exact hdecim

/-- The count of a channel that still lacks samples does not wrap: `D` is below `2^32` (00_scope.md R6). -/
theorem ChanAcc_add_count {cfg : Cfg} {a : ChanAcc} (hwf : cfg.wf = true) (hroom : a.n.toNat < cfg.decim)
    (nan raw : Word) : (a.add nan raw).n.toNat = a.n.toNat + 1 := by
  have hdecim := Cfg_wf_decim_lt hwf
  change (a.n + 1#32).toNat = _
  bv_omega

theorem countFull_eq_false {cfg : Cfg} {a : ChanAcc} (h : a.n.toNat < cfg.decim) : countFull cfg a = false :=
  beq_eq_false_iff_ne.mpr h.ne

theorem periodComplete_iff_forall (cfg : Cfg) (a : Acq) :
    periodComplete cfg a = true ↔ ∀ k, (a.chan k).n.toNat = cfg.decim :=
  (periodComplete_iff cfg a).trans ⟨fun ⟨h0, h1⟩ => Chan_forall h0 h1, fun h => ⟨h .ch0, h .ch1⟩⟩

/-- The sample completes the period exactly when it is its channel's last and the other channel has all of its own. -/
theorem periodComplete_sampledAcq_iff {c : Chan} {s : State} (hwf : s.cfg.wf = true)
    (hroom : (s.acq.chan c).n.toNat < s.cfg.decim) (raw : Word) :
    periodComplete s.cfg (sampledAcq c raw s) = true ↔
      (s.acq.chan c).n.toNat + 1 = s.cfg.decim ∧ (s.acq.chan c.other).n.toNat = s.cfg.decim := by
  have hcount := ChanAcc_add_count hwf hroom (s.acqNan 0) raw
  rw [periodComplete_iff_forall]
  constructor
  · intro hfull
    have hsame := hfull c
    have hother := hfull c.other
    rw [sampledAcq_chan, hcount] at hsame
    rw [sampledAcq_chan_other] at hother
    exact ⟨hsame, hother⟩
  · rintro ⟨hsame, hother⟩
    refine Chan_forall_other c ?_ ?_
    · rw [sampledAcq_chan, hcount, hsame]
    · rw [sampledAcq_chan_other, hother]

theorem execSample_full {ch : Code8} {c : Chan} {s : State} (hc : channelOf ch = some c)
    (hf : countFull s.cfg (s.acq.chan c) = true) (raw : Word) (ts : Time) :
    execSample ch raw ts s = .fault .lockstepViolation := by
  simp [execSample, hc, hf]

theorem exec_sample_of_lt {c : Chan} {s : State} (h : (s.acq.chan c).n.toNat < s.cfg.decim) (raw : Word) (ts : Time) :
    exec (.sample (channelCode c) raw ts) s = .next (acceptSample c raw s) :=
  execSample_accepted (channelOf_channelCode c) (countFull_eq_false h) raw ts

/-- Settles O22: the three answers of SAMPLE by the channel and its count, the accepted one in its two parts. -/
theorem sampleFollowsItsRule : Obligations.SampleFollowsItsRule := by
  intro ch raw ts s hwf _
  refine ⟨fun h0 h1 => execSample_dropped ((if_neg h0).trans (if_neg h1)) raw ts s, ?_⟩
  rintro c rfl
  refine ⟨fun hfull => ?_, fun hroom hopen => ?_, fun hlast hother => ?_⟩
  · exact execSample_full (channelOf_channelCode c) ((countFull_iff _ _).mpr hfull) raw ts
  · have hstep := acceptSample_of_open (mt (periodComplete_sampledAcq_iff hwf hroom raw).mp hopen)
    refine ⟨s.setAcq (sampledAcq c raw s), hstep ▸ exec_sample_of_lt hroom raw ts, ?_⟩
    rw [State_setAcq_acq, sampledAcq_chan]
    exact ⟨rfl, ChanAcc_add_count hwf hroom _ _, sampledAcq_chan_other c raw s, sampledAcq_draws c raw s, rfl⟩
  · have hroom : (s.acq.chan c).n.toNat < s.cfg.decim := by omega
    have hstep := acceptSample_of_complete ((periodComplete_sampledAcq_iff hwf hroom raw).mpr ⟨hlast, hother⟩)
    refine ⟨emitPair (s.setAcq (sampledAcq c raw s)) (s.acqNan 1) (s.acqNan 2), (sampledAcq c raw s).acc0.sum,
      (sampledAcq c raw s).acc1.sum, hstep ▸ exec_sample_of_lt hroom raw ts, ?_⟩
    cases c with
    | ch0 | ch1 => exact ⟨rfl, rfl, rfl⟩

/-! ### A whole period (40_decimator.md R93) -/

theorem feed_cons {c : Chan} {s : State} (h : (s.acq.chan c).n.toNat < s.cfg.decim) (raw : Word) (ts : Time)
    (rest : List (Chan × Word × Time)) : feed s ((c, raw, ts) :: rest) = feed (acceptSample c raw s) rest := by
  rw [feed, exec_sample_of_lt h]

section Samples

variable (c : Chan) (raw : Word) (ts : Time) (rest : List (Chan × Word × Time))

@[simp] theorem samplesOf_cons_same : samplesOf c ((c, raw, ts) :: rest) = raw :: samplesOf c rest := by
  simp [samplesOf]

@[simp] theorem samplesOf_cons_other : samplesOf c.other ((c, raw, ts) :: rest) = samplesOf c.other rest := by
  cases c <;> rfl

/-- A sum over the samples that remain after an accepted one is a sum over all of them. -/
theorem SumOf.cons_sample {s : State} {r : Word} :
    ∀ k, SumOf ((sampledAcq c raw s).chan k).sum (samplesOf k rest) r →
      SumOf (s.acq.chan k).sum (samplesOf k ((c, raw, ts) :: rest)) r := by
  refine Chan_forall_other c (fun h => ?_) (fun h => ?_)
  · rw [sampledAcq_chan] at h
    rw [samplesOf_cons_same]
    exact .add _ _ _ _ _ (isNaN_acqNan s 0) h
  · rw [sampledAcq_chan_other] at h
    rwa [samplesOf_cons_other]

end Samples

/-- Every channel still lacks exactly its samples of `xs` to complete the period. -/
def LacksSamples (s : State) (xs : List (Chan × Word × Time)) : Prop :=
  ∀ k : Chan, (s.acq.chan k).n.toNat + (samplesOf k xs).length = s.cfg.decim

theorem LacksSamples.lt {s : State} {c : Chan} {raw : Word} {ts : Time} {rest : List (Chan × Word × Time)}
    (h : LacksSamples s ((c, raw, ts) :: rest)) : (s.acq.chan c).n.toNat < s.cfg.decim := by
  have hc := h c
  rw [samplesOf_cons_same, List.length_cons] at hc
  omega

/-- An accepted sample leaves the samples after it to be taken. -/
theorem LacksSamples.tail {s : State} {c : Chan} {raw : Word} {ts : Time} {rest : List (Chan × Word × Time)}
    (hwf : s.cfg.wf = true) (h : LacksSamples s ((c, raw, ts) :: rest)) :
    LacksSamples (s.setAcq (sampledAcq c raw s)) rest := by
  have hcount := ChanAcc_add_count hwf h.lt (s.acqNan 0) raw
  refine Chan_forall_other c ?_ ?_
  · have hc := h c
    rw [samplesOf_cons_same, List.length_cons] at hc
    rw [State_setAcq_acq, sampledAcq_chan, hcount, State_setAcq_cfg]
    omega
  · have ho := h c.other
    rw [samplesOf_cons_other] at ho
    rwa [State_setAcq_acq, sampledAcq_chan_other]

/-- The period is complete exactly when no sample is lacking. -/
theorem LacksSamples.complete_iff {s : State} {xs : List (Chan × Word × Time)} (h : LacksSamples s xs) :
    periodComplete s.cfg s.acq = true ↔ xs = [] := by
  rw [periodComplete_iff_forall]
  cases xs with
  | nil => exact iff_of_true h rfl
  | cons x rest => exact iff_of_false (fun hfull => h.lt.ne (hfull x.1)) (List.cons_ne_nil x rest)

/-- `t` is as R93 asks of the state that the samples `xs` lead to from `s`: the pair holds the means of the sums `sum`,
the divisions drawing the NaN patterns `nan`; the accumulators are zero; all but ACQ's registers and the hand-off is as
in `s`. -/
structure EmitsMeans (s : State) (xs : List (Chan × Word × Time)) (t : State) (sum nan : Chan → Word) : Prop where
  sums    : ∀ k, SumOf (s.acq.chan k).sum (samplesOf k xs) (sum k)
  nans    : ∀ k, isNaN (nan k) = true
  pair    : t.shared =
    { hv0 := fdiv (nan .ch0) (sum .ch0) (i2f s.cfg.decim), hv1 := fdiv (nan .ch1) (sum .ch1) (i2f s.cfg.decim)
      ready := true, frstPend := s.shared.frstPend }
  cleared : ∀ k, t.acq.chan k = ChanAcc.zero
  cfg     : t.cfg = s.cfg
  proc    : t.proc = s.proc
  clk     : t.clk = s.clk
  script  : t.script = s.script

/-- The NaN patterns the two divisions of the pair emission draw (00_scope.md R13). -/
def emissionNan (s : State) : Chan → Word
  | .ch0 => s.acqNan 1
  | .ch1 => s.acqNan 2

theorem isNaN_emissionNan (s : State) : ∀ k, isNaN (emissionNan s k) = true
  | .ch0 => isNaN_acqNan s 1
  | .ch1 => isNaN_acqNan s 2

/-- The sample that completes a period emits the pair. -/
theorem EmitsMeans.last (c : Chan) (raw : Word) (ts : Time) (s : State) :
    EmitsMeans s [(c, raw, ts)] (emitPair (s.setAcq (sampledAcq c raw s)) (s.acqNan 1) (s.acqNan 2))
      (fun k => ((sampledAcq c raw s).chan k).sum) (emissionNan s) where
  sums k := .cons_sample c raw ts [] k (.done _)
  nans := isNaN_emissionNan s
  pair := rfl
  cleared := Chan_forall rfl rfl
  cfg := rfl
  proc := rfl
  clk := rfl
  script := rfl

/-- A sample that does not complete the period goes into its channel's sum. -/
theorem EmitsMeans.cons {c : Chan} {raw : Word} {s t : State} {rest : List (Chan × Word × Time)}
    {sum nan : Chan → Word} (h : EmitsMeans (s.setAcq (sampledAcq c raw s)) rest t sum nan) (ts : Time) :
    EmitsMeans s ((c, raw, ts) :: rest) t sum nan :=
  { h with sums := fun k => .cons_sample c raw ts rest k (h.sums k) }

/-- The samples that a period still lacks, in any interleaving, emit its pair with the last of them. -/
theorem feed_emitsMeans {s : State} {xs : List (Chan × Word × Time)} (hwf : s.cfg.wf = true) (hne : xs ≠ [])
    (h : LacksSamples s xs) : ∃ t sum nan, feed s xs = .next t ∧ EmitsMeans s xs t sum nan := by
  induction xs generalizing s with
  | nil => exact absurd rfl hne
  | cons x rest ih =>
    obtain ⟨c, raw, ts⟩ := x
    have htail := h.tail hwf
    have hiff : periodComplete s.cfg (sampledAcq c raw s) = true ↔ rest = [] := htail.complete_iff
    rw [feed_cons h.lt]
    by_cases hrest : rest = []
    · subst hrest
      rw [acceptSample_of_complete (hiff.mpr rfl)]
      exact ⟨_, _, _, rfl, .last c raw ts s⟩
    · rw [acceptSample_of_open (mt hiff.mp hrest)]
      obtain ⟨t, sum, nan, hfeed, hmeans⟩ := ih (s := s.setAcq (sampledAcq c raw s)) hwf hrest htail
      exact ⟨t, sum, nan, hfeed, hmeans.cons ts⟩

/-- Settles O23: at the start of a period each channel lacks `D` samples, and `D` is not 0. -/
theorem periodOfSamplesEmitsTheMeans : Obligations.PeriodOfSamplesEmitsTheMeans := by
  intro s xs hwf h0 h1 hlen0 hlen1
  have hlacks : LacksSamples s xs := Chan_forall (by simp [Acq.chan, h0, hlen0]) (by simp [Acq.chan, h1, hlen1])
  have hne : xs ≠ [] := by
    rintro rfl
    exact (Cfg_wf_decim_pos hwf).ne hlen0
  obtain ⟨t, sum, nan, hfeed, hmeans⟩ := feed_emitsMeans hwf hne hlacks
  have hsum0 : SumOf 0#32 (samplesOf .ch0 xs) (sum .ch0) := by simpa [Acq.chan, h0] using hmeans.sums .ch0
  have hsum1 : SumOf 0#32 (samplesOf .ch1 xs) (sum .ch1) := by simpa [Acq.chan, h1] using hmeans.sums .ch1
  exact ⟨t, sum .ch0, sum .ch1, nan .ch0, nan .ch1, hfeed, hsum0, hsum1, hmeans.nans .ch0, hmeans.nans .ch1,
    hmeans.pair, hmeans.cleared .ch0, hmeans.cleared .ch1, hmeans.cfg, hmeans.proc, hmeans.clk, hmeans.script⟩

end Sys2Proof.Machine

/-!
PROOFS. The power estimator (41_power_estimator.md): what PWR does to every state (R100).
-/

namespace Sys2Proof.Machine

/-- PWR's whole step (R100): the rectified product goes to `p`, and BQ0 is the next stage. -/
theorem exec_pwr (s : State) : exec .pwr s = .next (s.setProc { s.proc with
    p := powerOf (s.procNan 0) (s.procNan 1) s.cfg.scale s.proc.lv0 s.proc.lv1
    stage := 0x12#8
    draws := s.proc.draws + 2 }) := rfl

/-- Settles O27: PWR's code is R74's, and `fabs` leaves no sign on the product that PWR rectifies. -/
theorem powerIsTheRectifiedProduct : Obligations.PowerIsTheRectifiedProduct := by
  obtain ⟨_, hdecode, _⟩ := stageCodesDecode
  refine ⟨hdecode, fun s => ⟨_, _, rfl, rfl, exec_pwr s, ?_⟩⟩
  exact signOf_fabs _

end Sys2Proof.Machine

/-!
PROOFS. The cascaded high-pass filter (42_highpass_filter.md): the section function (R105), a section's whole stage (R106
to R108), the three stages in series (R110) and FRESET (R109).
-/

namespace Sys2Proof.Machine

/-! ### One section (42_highpass_filter.md R105 to R108) -/

/-- The section function makes the nine roundings of R105: the temporaries are its subterms. -/
theorem biquadRule_biquadOut_biquadDelay (nan : Nat → Word) (c : Coefs) (w : Delay) (x : Word) :
    BiquadRule nan c w x (biquadOut nan c w x) (biquadDelay nan c w x (biquadOut nan c w x)) :=
  ⟨_, _, _, _, _, _, rfl, rfl, rfl, rfl, rfl, rfl, rfl, rfl, rfl⟩

@[simp] theorem runSection_output (k : Sec) (next : Code8) (s : State) :
    (runSection k next s).proc.output k =
      biquadOut s.procNan (sectionCoefs s.cfg k) (s.proc.delay k) (s.proc.sectionInput k) := by
  cases k <;> rfl

@[simp] theorem runSection_delay (k : Sec) (next : Code8) (s : State) :
    (runSection k next s).proc.delay k =
      biquadDelay s.procNan (sectionCoefs s.cfg k) (s.proc.delay k) (s.proc.sectionInput k)
        ((runSection k next s).proc.output k) := by
  cases k <;> rfl

/-- A section's output and new delay line follow R105 from its coefficients, its old delay line and its input. -/
theorem biquadRule_runSection (k : Sec) (next : Code8) (s : State) :
    BiquadRule s.procNan (sectionCoefs s.cfg k) (s.proc.delay k) (s.proc.sectionInput k)
      ((runSection k next s).proc.output k) ((runSection k next s).proc.delay k) := by
  rw [runSection_delay, runSection_output]
  exact biquadRule_biquadOut_biquadDelay _ _ _ _

/-- The stage of a section runs it and selects the stage code after its own. -/
theorem exec_instr (k : Sec) (s : State) :
    exec k.instr s = .next (runSection k (BitVec.ofNat 8 (0x13 + k.index)) s) := by
  cases k <;> rfl

/-- Settles O28: each stage runs its section, whose output and delay line follow R105; the other fields are as
`runSection` leaves them. -/
theorem sectionsFollowTheBiquadEquations : Obligations.SectionsFollowTheBiquadEquations := by
  obtain ⟨_, _, hbq0, hbq1, hbq2, _⟩ := stageCodesDecode
  refine ⟨hbq0, hbq1, hbq2, fun s => ⟨?_, ?_, ?_⟩⟩
  · exact ⟨_, _, biquadRule_runSection .sec0 0x13#8 s, exec_instr .sec0 s⟩
  · exact ⟨_, _, biquadRule_runSection .sec1 0x14#8 s, exec_instr .sec1 s⟩
  · exact ⟨_, _, biquadRule_runSection .sec2 0x15#8 s, exec_instr .sec2 s⟩

/-! ### The cascade (42_highpass_filter.md R110) -/

theorem Core_run_succ {M : Host.Core} {s t : M.State} (h : M.step s = .next t) (k : Nat) :
    M.run (k + 1) s = M.run k t := by
  rw [Host.Core.run, h]

/-- With no turn scheduled, PROC at a section's stage runs that section. -/
theorem step_at_section {k : Sec} {s : State} (hs : s.script = [])
    (hstage : s.proc.stage = BitVec.ofNat 8 (0x12 + k.index)) :
    step s = .next (runSection k (BitVec.ofNat 8 (0x13 + k.index)) s) := by
  obtain ⟨_, _, hproc⟩ := stepRunsTheDecodedOperation s k.instr []
  have hdecode : decodeStage s.proc.stage = .ok k.instr :=
    decodeStage_encode _ _ ((encode_instr k).trans (congrArg Code.stage hstage.symm))
  rw [hproc hs hdecode, exec_instr]

/-- The state BQ0 leaves (R106). -/
def afterBq0 (s : State) : State := runSection .sec0 0x13#8 s

/-- The state BQ0 and BQ1 leave (R106, R107). -/
def afterBq1 (s : State) : State := runSection .sec1 0x14#8 (afterBq0 s)

/-- The state the whole cascade leaves: each section runs on the state of the one before (R110). -/
def afterBq2 (s : State) : State := runSection .sec2 0x15#8 (afterBq1 s)

theorem core_run_cascade {s : State} (hs : s.script = []) (hstage : s.proc.stage = 0x12#8) :
    core.run 3 s = .next (afterBq2 s) :=
  calc core.run 3 s
    _ = core.run 2 (afterBq0 s) := Core_run_succ (step_at_section (k := .sec0) (s := s) hs hstage) 2
    _ = core.run 1 (afterBq1 s) := Core_run_succ (step_at_section (k := .sec1) (s := afterBq0 s) hs rfl) 1
    _ = .next (afterBq2 s) := Core_run_succ (step_at_section (k := .sec2) (s := afterBq1 s) hs rfl) 0

/-- Settles O29: the run is the cascade, and no section writes the output or the delay line of another. -/
theorem cascadeAppliesTheSectionsInSeries : Obligations.CascadeAppliesTheSectionsInSeries := by
  intro s hs hstage
  refine ⟨afterBq2 s, s.procNan, (afterBq0 s).procNan, (afterBq1 s).procNan, core_run_cascade hs hstage,
    fun i => ⟨isNaN_procNan _ i, isNaN_procNan _ i, isNaN_procNan _ i⟩, ?_, ?_, ?_, rfl⟩
  · exact biquadRule_runSection .sec0 0x13#8 s
  · exact biquadRule_runSection .sec1 0x14#8 (afterBq0 s)
  · exact biquadRule_runSection .sec2 0x15#8 (afterBq1 s)

/-! ### FRESET (42_highpass_filter.md R109) -/

/-- Settles O24: FRESET's update is of the pending bit alone, and a beat with its operation code decodes to it by R73. -/
theorem fresetSetsOnlyThePendingBit : Obligations.FresetSetsOnlyThePendingBit :=
  fun _ => ⟨rfl, beatsDecodeByOpcode 0x02#8⟩

end Sys2Proof.Machine

/-!
PROOFS. The baseline estimator (43_baseline.md): the push at the cursor (R120), the mean of all slots (R121), and the
history that the ring buffer holds over every step (R123).
-/

namespace Sys2Proof.Machine

/-! ### BPUSH (43_baseline.md R120) -/

theorem Cfg_wf_ringSize_pos {c : Cfg} (h : c.wf = true) : 0 < c.ringSize := by
  obtain ⟨_, _, _, _, _, hpos, _⟩ := (Cfg_wf_iff c).mp h
  exact hpos

theorem Cfg_wf_ringSize_lt {c : Cfg} (h : c.wf = true) : c.ringSize < 2 ^ 32 := by
  obtain ⟨_, _, _, _, _, _, hlt, _⟩ := (Cfg_wf_iff c).mp h
  exact hlt

/-- The state that a push with its cursor inside the ring leaves. -/
def pushed (s : State) : State :=
  s.setProc { s.proc with
    buf := s.proc.buf.write s.proc.cur.toNat s.proc.p
    cur := if cursorLast s.cfg s.proc then 0#32 else s.proc.cur + 1#32
    full := s.proc.full || cursorLast s.cfg s.proc
    stage := 0x16#8 }

theorem exec_bpush_of_lt {s : State} (h : s.proc.cur.toNat < s.cfg.ringSize) : exec .bpush s = .next (pushed s) :=
  if_pos (decide_eq_true h)

theorem exec_bpush_next {s t : State} (h : exec .bpush s = .next t) : t = pushed s := by
  obtain ⟨_, rfl⟩ := execBpush_next h
  rfl

@[simp] theorem pushed_cfg (s : State) : (pushed s).cfg = s.cfg := rfl

theorem pushed_read {s : State} (h : s.proc.buf.wf = true) (k : Nat) :
    (pushed s).proc.buf.read k = if k = s.proc.cur.toNat then s.proc.p else s.proc.buf.read k :=
  Memory_read_write s.proc.buf 0 s.proc.cur.toNat k s.proc.p h

theorem pushed_full (s : State) :
    (pushed s).proc.full = (s.proc.full || decide (s.proc.cur.toNat = s.cfg.ringSize - 1)) := rfl

theorem cursorLast_iff (c : Cfg) (q : Proc) : cursorLast c q = true ↔ q.cur.toNat = c.ringSize - 1 := beq_iff_eq

/-- The cursor wraps after the last slot, and before it the 32-bit count does not overflow. -/
theorem pushed_cur {s : State} (hwf : s.cfg.wf = true) (hcur : s.proc.cur.toNat < s.cfg.ringSize) :
    (pushed s).proc.cur.toNat =
      if s.proc.cur.toNat = s.cfg.ringSize - 1 then 0 else s.proc.cur.toNat + 1 := by
  have hsize := Cfg_wf_ringSize_lt hwf
  change (if cursorLast s.cfg s.proc then 0#32 else s.proc.cur + 1#32).toNat = _
  simp only [cursorLast_iff]
  split
  next => rfl
  next => bv_omega

/-- Settles O32. -/
theorem pushStoresAtTheCursor : Obligations.PushStoresAtTheCursor := by
  obtain ⟨_, _, _, _, _, hdecode, _⟩ := stageCodesDecode
  refine ⟨hdecode, fun s hwf hbuf hcur => ⟨pushed s, exec_bpush_of_lt hcur, ?_, fun a ha => ?_,
    Memory_wf_write _ _ _ hbuf, pushed_cur hwf hcur, pushed_full s, rfl⟩⟩
  · rw [pushed_read hbuf, if_pos rfl]
  · rw [pushed_read hbuf, if_neg ha]

/-! ### BASE (43_baseline.md R121) -/

/-- The recursive sum is the addition of the slots one after the other, in index order. -/
theorem sumSlots_eq_foldl (nan : Nat → Word) (m : Memory) (k : Nat) :
    sumSlots nan m k = (List.range k).foldl (fun acc i => fadd (nan i) acc (m.read i)) posZero := by
  induction k with
  | zero => rfl
  | succ k ih =>
    rw [List.range_succ, List.foldl_concat, ← ih]
    rfl

/-- BASE's whole step: no state stops it. -/
theorem exec_base (s : State) : exec .base s = .next (s.setProc { s.proc with
    bvalid := s.proc.full
    bval := if s.proc.full then ringMean s.procNan s.proc.buf s.cfg.ringSize else posZero
    stage := 0x1A#8
    draws := s.proc.draws + (s.cfg.ringSize + 1) }) := rfl

/-- Settles O34: BASE's own sum of the slots is the fold of the statement. -/
theorem baselineIsTheMeanOfAllSlots : Obligations.BaselineIsTheMeanOfAllSlots := by
  obtain ⟨_, _, _, _, _, _, _, _, _, hdecode, _⟩ := stageCodesDecode
  refine ⟨hdecode, fun s => ⟨_, ?_, exec_base s⟩⟩
  rw [ringMean, sumSlots_eq_foldl]
  rfl

/-- Once the buffer has filled, the baseline is available and is the mean of all slots. -/
theorem exec_base_of_full {s : State} (h : s.proc.full = true) :
    ∃ t, exec .base s = .next t ∧ t.proc.bvalid = true ∧ t.proc.bval = ringMean s.procNan s.proc.buf s.cfg.ringSize :=
  ⟨_, exec_base s, h, if_pos h⟩

/-! ### The history of the ring buffer (43_baseline.md R123) -/

/-- The slot number after that of push `n`. -/
theorem add_one_mod_eq_ite {size : Nat} (n : Nat) (hpos : 0 < size) :
    (n + 1) % size = if n % size = size - 1 then 0 else n % size + 1 := by
  have hlt := Nat.mod_lt n hpos
  rw [← Nat.mod_add_mod]
  split
  next hlast => rw [hlast, Nat.sub_add_cancel hpos, Nat.mod_self]
  next hne => exact Nat.mod_eq_of_lt (by omega)

/-- Two pushes less than a round apart go to different slots. -/
theorem mod_ne_mod_of_lt_add {size j n : Nat} (hlt : j < n) (hnear : n < j + size) : j % size ≠ n % size :=
  fun heq => hlt.ne (Nat.mod_injOn_Ico j size (Finset.mem_coe.mpr (Finset.mem_Ico.mpr ⟨le_rfl, hlt.trans hnear⟩))
    (Finset.mem_coe.mpr (Finset.mem_Ico.mpr ⟨hlt.le, hnear⟩)) heq)

/-- What is held depends on the ring's size, its slots, the cursor and the flag alone. -/
theorem RingHolds.of_eq {s t : State} {hist : List Word} (h : RingHolds s hist) (hcfg : t.cfg = s.cfg)
    (hring : t.proc.buf = s.proc.buf ∧ t.proc.cur = s.proc.cur ∧ t.proc.full = s.proc.full) : RingHolds t hist := by
  obtain ⟨hbuf, hcur, hfull⟩ := hring
  unfold RingHolds
  rw [hcfg, hbuf, hcur, hfull]
  exact h

/-- A reset leaves an empty ring: the cursor on slot 0, and `full` clear since a ring has a slot. -/
theorem RingHolds.resetCore {s : State} (hwf : s.cfg.wf = true) : RingHolds s.resetCore [] :=
  ⟨(Nat.zero_mod _).symm, (decide_eq_false (Nat.not_le.mpr (Cfg_wf_ringSize_pos hwf))).symm, fun _ _ hj => nomatch hj⟩

/-- The flag after a push: set from the push that completes the first round on. -/
theorem decide_round_complete {size : Nat} (n : Nat) (hpos : 0 < size) :
    (decide (size ≤ n) || decide (n % size = size - 1)) = decide (size ≤ n + 1) := by
  rw [← Bool.decide_or]
  refine decide_eq_decide.mpr ⟨?_, fun hle => ?_⟩
  · rintro (hle | hlast)
    · omega
    · have hmod := Nat.mod_le n size
      omega
  · rcases Nat.lt_or_ge n size with hlt | hge
    · rw [Nat.mod_eq_of_lt hlt]
      omega
    · exact .inl hge

/-- A push adds its sample to the history: it takes the slot of the sample a whole round before it, and no other. -/
theorem RingHolds.push {s : State} {hist : List Word} (h : RingHolds s hist) (hwf : s.cfg.wf = true)
    (hbuf : s.proc.buf.wf = true) : RingHolds (pushed s) (hist ++ [s.proc.p]) := by
  obtain ⟨hcur, hfull, hslots⟩ := h
  have hpos := Cfg_wf_ringSize_pos hwf
  unfold RingHolds
  rw [pushed_cfg, List.length_append, List.length_singleton]
  refine ⟨?_, ?_, fun j v hj hrecent => ?_⟩
  · rw [pushed_cur hwf (hcur ▸ Nat.mod_lt _ hpos), hcur, add_one_mod_eq_ite _ hpos]
  · rw [pushed_full, hfull, hcur, decide_round_complete _ hpos]
  · rw [pushed_read hbuf, hcur]
    rcases Nat.lt_trichotomy j hist.length with hlt | rfl | hgt
    · rw [if_neg (mod_ne_mod_of_lt_add hlt (by omega))]
      rw [List.getElem?_append_left hlt] at hj
      exact hslots j v hj (by omega)
    · rw [if_pos rfl]
      rw [List.getElem?_concat_length] at hj
      exact Option.some.inj hj
    · rw [List.getElem?_eq_none (List.length_append.trans_le hgt)] at hj
      cases hj

/-- BPUSH alone writes the ring, its cursor and its flag. -/
theorem exec_ring {i : Instr} {s t : State} (hi : i ≠ .bpush) (h : exec i s = .next t) :
    t.proc.buf = s.proc.buf ∧ t.proc.cur = s.proc.cur ∧ t.proc.full = s.proc.full := by
  cases i with
  | bpush => exact absurd rfl hi
  | sample | freset =>
    rw [exec_host_proc rfl h]
    exact ⟨rfl, rfl, rfl⟩
  | wait =>
    obtain ⟨_, rfl⟩ | rfl | rfl := execWait_next h <;> exact ⟨rfl, rfl, rfl⟩
  | pwr | bq0 | bq1 | bq2 | detect | classify | emit | base | status =>
    obtain rfl := Host.Outcome.next.inj h
    exact ⟨rfl, rfl, rfl⟩

/-- PROC's turn at BPUSH's stage is the push. -/
theorem step_at_bpush {s : State} (hturn : s.nextTurn = .proc) (hstage : s.proc.stage = 0x15#8) :
    step s = exec .bpush s.popTurn := by
  obtain ⟨_, _, _, _, _, hdecode, _⟩ := stageCodesDecode
  unfold step
  rw [hturn]
  exact runCode_ok (.stage s.proc.stage) .bpush s.popTurn (hstage ▸ hdecode)

/-- A step that is neither a reset nor PROC's turn at BPUSH's stage leaves the ring. -/
theorem step_ring {s t : State} (h : step s = .next t) (hnr : s.nextTurn ≠ .reset)
    (hnp : s.nextTurn = .proc → s.proc.stage ≠ 0x15#8) :
    t.proc.buf = s.proc.buf ∧ t.proc.cur = s.proc.cur ∧ t.proc.full = s.proc.full := by
  rcases step_proc_cases h with hproc | hreset | ⟨i, hturn, hcode, hx⟩
  · rw [hproc]
    exact ⟨rfl, rfl, rfl⟩
  · exact absurd hreset hnr
  · refine exec_ring (s := s.popTurn) ?_ hx
    rintro rfl
    exact hnp hturn (Code.stage.inj hcode).symm

theorem step_of_reset {s : State} (hturn : s.nextTurn = .reset) : step s = .next s.popTurn.resetCore := by
  unfold step
  rw [hturn]
  rfl

/-- Settles O35: a reset empties the ring, a push adds to its history, and no other step touches it. -/
theorem ringHoldsTheLastSamples : Obligations.RingHoldsTheLastSamples := by
  refine ⟨fun c t hwf => State_initial_resetCore c t ▸ RingHolds.resetCore hwf,
    fun s t hist hwf hbuf h hstep => ⟨fun hreset => ?_, fun hturn hstage => ?_, fun hnr hnp => ?_⟩,
    fun s hist ⟨_, hfull, _⟩ hlen => exec_base_of_full (hfull.trans (decide_eq_true hlen))⟩
  · obtain rfl := Host.Outcome.next.inj ((step_of_reset hreset).symm.trans hstep)
    exact .resetCore (s := s.popTurn) hwf
  · obtain rfl := exec_bpush_next ((step_at_bpush hturn hstage).symm.trans hstep)
    exact RingHolds.push (s := s.popTurn) h hwf hbuf
  · obtain ⟨hcfg, _⟩ := configurationNeverChanges s t hstep
    exact h.of_eq hcfg (step_ring hstep hnr hnp)

end Sys2Proof.Machine

/-!
PROOFS. The event detector (44_event_detector.md): DETECT's branches, the debounce window, and the invariants of the event
trace that every step keeps.
-/

namespace Sys2Proof.Machine

/-! ### DETECT (44_event_detector.md R130, R131) -/

/-- The test of R130: the window has passed and the magnitude passes the threshold. -/
theorem detects_iff (c : Cfg) (now : Time) (q : Proc) :
    detects c now q = true ↔
      c.debounceMs.toNat ≤ (now - q.last).toNat ∧ fgt (fabs q.y2) c.eventThreshold = true := by
  simp [detects, gateClosed, magnitudePasses]

theorem exec_detect (s : State) : exec .detect s = .next (s.setProc (detectProc s.cfg s.clk s.proc)) := rfl

section DetectProc

variable {c : Cfg} {now : Time} {q : Proc}

theorem detectProc_rejected (hd : detects c now q = false) :
    detectProc c now q = { q with tnow := now, ev := false, stage := 0x19#8 } := by
  simp [detectProc, stageAfterDetect, hd]

theorem detectProc_on (hd : detects c now q = true) (hon : directionOn q.y2 = true) :
    detectProc c now q = { q with tnow := now, ev := true, last := now, dir := true, stage := 0x17#8 } := by
  simp [detectProc, stageAfterDetect, hd, hon]

theorem detectProc_off (hd : detects c now q = true) (hoff : directionOn q.y2 = false) :
    detectProc c now q =
      { q with tnow := now, ev := true, last := now, dir := false, cat := 0x02#8, stage := 0x18#8 } := by
  simp [detectProc, stageAfterDetect, hd, hoff, catNotApplicable]

@[simp] theorem detectProc_ev : (detectProc c now q).ev = detects c now q := rfl

theorem detectProc_last (hd : detects c now q = true) : (detectProc c now q).last = now := if_pos hd

end DetectProc

/-- Settles O36: the three outcomes of DETECT are no event, an ON event and an OFF event. -/
theorem detectFollowsItsRule : Obligations.DetectFollowsItsRule := by
  refine ⟨rfl, fun s => ⟨fun hrej => ?_, fun hgate hmag => ?_⟩⟩
  · have hd : detects s.cfg s.clk s.proc = false := by
      rw [Bool.eq_false_iff, Ne, detects_iff]
      rintro ⟨hgate, hmag⟩
      obtain hclosed | hfail := hrej
      · exact absurd hclosed (Nat.not_lt.mpr hgate)
      · exact absurd hmag (Bool.eq_false_iff.mp hfail)
    rw [exec_detect, detectProc_rejected hd]
    rfl
  · have hd : detects s.cfg s.clk s.proc = true := (detects_iff _ _ _).mpr ⟨hgate, hmag⟩
    refine ⟨fun hon => ?_, fun hoff => ?_⟩
    · rw [exec_detect, detectProc_on hd hon]
      rfl
    · rw [exec_detect, detectProc_off hd hoff]
      rfl

/-- Settles O37: `last` is the first event's time, and with a monotonic clock the gate's difference modulo `2^64` is the
time that has passed since. -/
theorem debounceSeparatesAcceptedEvents : Obligations.DebounceSeparatesAcceptedEvents := by
  intro s1 t1 s2 t2 h1 hev _ hlast hmono hmag h2
  obtain rfl := Host.Outcome.next.inj h1
  obtain rfl := Host.Outcome.next.inj h2
  have hlast' : s2.proc.last = s1.clk := hlast.trans (detectProc_last hev)
  have helapsed : (s2.clk - s2.proc.last).toNat = s2.clk.toNat - s1.clk.toNat := by
    rw [hlast', BitVec.toNat_sub_of_le hmono]
  rw [State_setProc_proc, detectProc_ev, detects_iff, helapsed]
  exact and_iff_left hmag

/-! ### The category of an ON event (45_classifier.md R140, 30_encoding.md R77) -/

theorem firstMatch_mem {m : Word} {tab : List DevRange} {e : DevRange} (h : firstMatch m tab = some e) : e ∈ tab := by
  induction tab with
  | nil => cases h
  | cons d rest ih =>
    unfold firstMatch at h
    split at h
    next => exact Option.some.inj h ▸ List.mem_cons_self
    next => exact List.mem_cons_of_mem _ (ih h)

/-- The table's categories are above the built-in ones, so the classifier never answers `NotApplicable`. -/
theorem classifyValue_ne_notApplicable {c : Cfg} (h : devCatsOk c.devTab = true) (x : Word) :
    classifyValue c x ≠ 0x02#8 := by
  unfold classifyValue
  split
  next e he =>
    have hge : 3 ≤ e.cat.toNat := of_decide_eq_true (List.all_eq_true.mp h e (firstMatch_mem he))
    intro hcat
    rw [hcat] at hge
    exact absurd hge (by decide)
  next => split <;> decide

/-! ### The event trace -/

/-- The time of the last record, or 0 before the first: what `last` holds by 10_state.md R37. -/
def lastEventTime (evt : List EventRecord) : Time := (evt.getLast?.map EventRecord.ts).getD 0#64

theorem lastEventTime_of_getLast? {evt : List EventRecord} {r : EventRecord} (h : evt.getLast? = some r) :
    lastEventTime evt = r.ts := by
  simp [lastEventTime, h]

theorem lastEventTime_append (evt : List EventRecord) (r : EventRecord) : lastEventTime (evt ++ [r]) = r.ts :=
  lastEventTime_of_getLast? List.getLast?_concat

/-- A record a window after the last one keeps the records spaced. -/
theorem eventsSpaced_append {window : Time} {evt : List EventRecord} {r : EventRecord}
    (h : eventsSpaced window evt = true)
    (hr : ∀ q, evt.getLast? = some q → window.toNat ≤ (r.ts - q.ts).toNat) :
    eventsSpaced window (evt ++ [r]) = true := by
  induction evt with
  | nil => rfl
  | cons a rest ih =>
    cases rest with
    | nil => simpa [eventsSpaced] using hr
    | cons b rest =>
      obtain ⟨hab, hrest⟩ := (Bool.and_eq_true _ _).mp h
      exact (Bool.and_eq_true _ _).mpr ⟨hab, ih hrest fun q hq => hr q (List.getLast?_cons_cons.trans hq)⟩

/-! ### Every step keeps the invariants of the event trace -/

/-- A legal stage at which no accepted event awaits its EMIT. -/
def settledStage (code : Code8) : Bool := stageOk code && code != 0x17#8 && code != 0x18#8

theorem settledStage_iff (code : Code8) :
    settledStage code = true ↔ stageOk code = true ∧ code ≠ 0x17#8 ∧ code ≠ 0x18#8 := by
  simp [settledStage, and_assoc]

/-- At a settled stage the invariants say nothing of the pending event. -/
theorem EventInv.of_settled {t : State} (hcats : devCatsOk t.cfg.devTab = true)
    (hstage : settledStage t.proc.stage = true) (hspaced : eventsSpaced t.cfg.debounceMs t.proc.evt = true)
    (hrecords : ∀ r ∈ t.proc.evt, (r.dir = false ↔ r.cat = 0x02#8))
    (hlast : t.proc.last = lastEventTime t.proc.evt) : EventInv t := by
  obtain ⟨hok, hne17, hne18⟩ := (settledStage_iff _).mp hstage
  exact
    { catsOk := hcats
      stageLegal := hok
      spaced := hspaced
      records := hrecords
      settled := fun _ _ => by
        rw [hlast]
        unfold lastEventTime
        cases t.proc.evt.getLast? <;> rfl
      pending := fun h => (h.elim hne17 hne18).elim
      onPath := fun h => absurd h hne17
      emitPath := fun h => absurd h hne18 }

section EventInv

variable {s t : State} (h : EventInv s)
include h

theorem EventInv.last_eq (hs : settledStage s.proc.stage = true) : s.proc.last = lastEventTime s.proc.evt := by
  obtain ⟨_, hne17, hne18⟩ := (settledStage_iff _).mp hs
  have hlast := h.settled hne17 hne18
  unfold lastEventTime
  cases hl : s.proc.evt.getLast? with
  | none => rwa [hl] at hlast
  | some r => rwa [hl] at hlast

/-- A step between settled stages that writes neither `last` nor the trace keeps the invariants. -/
theorem EventInv.of_frame (hs : settledStage s.proc.stage = true) (hcfg : t.cfg = s.cfg)
    (hevt : t.proc.evt = s.proc.evt) (hlast : t.proc.last = s.proc.last) (ht : settledStage t.proc.stage = true) :
    EventInv t :=
  .of_settled (hcfg ▸ h.catsOk) ht (hcfg ▸ hevt ▸ h.spaced) (hevt ▸ h.records)
    (by rw [hlast, hevt, h.last_eq hs])

/-- The open gate of R130 in terms of the trace. -/
theorem EventInv.window_le_of_detects (hs : settledStage s.proc.stage = true)
    (hd : detects s.cfg s.clk s.proc = true) (r : EventRecord) (hr : s.proc.evt.getLast? = some r) :
    s.cfg.debounceMs.toNat ≤ (s.clk - r.ts).toNat := by
  obtain ⟨hgate, _⟩ := (detects_iff _ _ _).mp hd
  rwa [h.last_eq hs, lastEventTime_of_getLast? hr] at hgate

/-- DETECT starts a pending event only where the gate is open. -/
theorem EventInv.detect (hs : settledStage s.proc.stage = true) :
    EventInv (s.setProc (detectProc s.cfg s.clk s.proc)) := by
  cases hd : detects s.cfg s.clk s.proc with
  | false =>
    rw [detectProc_rejected hd]
    exact h.of_frame hs rfl rfl rfl rfl
  | true =>
    have hgap := h.window_le_of_detects hs hd
    cases hon : directionOn s.proc.y2 with
    | true =>
      rw [detectProc_on hd hon]
      exact { h with
        stageLegal := rfl
        settled := fun hne _ => absurd rfl hne
        pending := fun _ => ⟨rfl, rfl, hgap⟩
        onPath := fun _ => rfl
        emitPath := fun he => nomatch he }
    | false =>
      rw [detectProc_off hd hon]
      exact { h with
        stageLegal := rfl
        settled := fun _ hne => absurd rfl hne
        pending := fun _ => ⟨rfl, rfl, hgap⟩
        onPath := fun he => nomatch he
        emitPath := fun _ => iff_of_true rfl rfl }

/-- CLASSIFY passes the pending ON event on to EMIT, with a category that is not `NotApplicable`. -/
theorem EventInv.classify (hs : s.proc.stage = 0x17#8) :
    EventInv (s.setProc { s.proc with cat := classifyValue s.cfg s.proc.y2, stage := 0x18#8 }) :=
  { h with
    stageLegal := rfl
    settled := fun _ hne => absurd rfl hne
    pending := fun _ => h.pending (.inl hs)
    onPath := fun he => nomatch he
    emitPath := fun _ =>
      iff_of_false (Bool.ne_false_iff.mpr (h.onPath hs)) (classifyValue_ne_notApplicable h.catsOk _) }

/-- EMIT appends the pending event, whose time is `last`. -/
theorem EventInv.emit (hs : s.proc.stage = 0x18#8) :
    EventInv (s.setProc { s.proc with evt := s.proc.evt ++ [eventOf s.proc], stage := 0x19#8 }) := by
  obtain ⟨_, hlast, hgap⟩ := h.pending (.inr hs)
  refine .of_settled h.catsOk rfl (eventsSpaced_append h.spaced hgap) (fun r hr => ?_) ?_
  · obtain hr | hr := List.mem_append.mp hr
    · exact h.records r hr
    · obtain rfl := List.mem_singleton.mp hr
      exact h.emitPath hs
  · exact hlast.trans (lastEventTime_append s.proc.evt (eventOf s.proc)).symm

/-- The operation that `stage` selects keeps the invariants: only DETECT, CLASSIFY and EMIT have to do with an event, and
every other stage leads from a settled stage to a settled one. -/
theorem EventInv.exec {i : Instr} (hcode : encode i = .stage s.proc.stage) (hx : exec i s = .next t) : EventInv t := by
  have hframe := exec_registerFrame hx
  obtain ⟨hcfg, _⟩ := exec_cfg_clk hx
  cases i with
  | sample | freset => nomatch hcode
  | detect =>
    obtain rfl := Host.Outcome.next.inj hx
    exact h.detect (Code.stage.inj hcode ▸ rfl)
  | classify =>
    obtain rfl := Host.Outcome.next.inj hx
    exact h.classify (Code.stage.inj hcode).symm
  | emit =>
    obtain rfl := Host.Outcome.next.inj hx
    exact h.emit (Code.stage.inj hcode).symm
  | wait =>
    have hs : settledStage s.proc.stage = true := Code.stage.inj hcode ▸ rfl
    refine h.of_frame hs hcfg (hframe.evt nofun) (hframe.last nofun) ?_
    obtain ⟨_, rfl⟩ | rfl | rfl := execWait_next hx
    · rfl
    · rfl
    · exact hs
  | bpush =>
    refine h.of_frame (Code.stage.inj hcode ▸ rfl) hcfg (hframe.evt nofun) (hframe.last nofun) ?_
    obtain ⟨_, rfl⟩ := execBpush_next hx
    rfl
  | pwr | bq0 | bq1 | bq2 | base | status =>
    refine h.of_frame (Code.stage.inj hcode ▸ rfl) hcfg (hframe.evt nofun) (hframe.last nofun) ?_
    obtain rfl := Host.Outcome.next.inj hx
    rfl

/-- The invariants speak of the configuration and of PROC's registers alone. -/
theorem EventInv.of_proc_eq (hcfg : t.cfg = s.cfg) (hproc : t.proc = s.proc) : EventInv t := by
  obtain ⟨cfg, _, _, proc, _, _⟩ := t
  obtain rfl : cfg = s.cfg := hcfg
  obtain rfl : proc = s.proc := hproc
  exact { h with }

end EventInv

/-- Settles O48: a reset brings the invariants about, PROC's operation at its stage keeps them, and no other turn touches
what they speak of. -/
theorem eventInvariantIsKept : Obligations.EventInvariantIsKept := by
  intro s t h hstep
  obtain ⟨hcfg, _⟩ := configurationNeverChanges s t hstep
  rcases step_proc_cases hstep with hproc | hreset | ⟨i, _, hcode, hx⟩
  · exact h.of_proc_eq hcfg hproc
  · obtain rfl := Host.Outcome.next.inj ((step_of_reset hreset).symm.trans hstep)
    exact EventInv_resetCore (s := s.popTurn) h.catsOk
  · exact (h.of_proc_eq (t := s.popTurn) rfl rfl).exec hcode hx

end Sys2Proof.Machine

/-!
PROOFS. The device classifier (45_classifier.md): the table search by position, the lookup's cases, and what CLASSIFY does
to every state.
-/

namespace Sys2Proof.Machine

/-! ### The lookup (45_classifier.md R140, R142) -/

theorem inRange_iff (m : Word) (e : DevRange) : inRange m e = true ↔ fle e.min m = true ∧ fle m e.max = true :=
  Bool.and_eq_true_iff

/-- A NaN is in no range. -/
theorem inRange_of_isNaN {m : Word} (h : isNaN m = true) (e : DevRange) : inRange m e = false := by
  obtain ⟨_, _, _, hle⟩ := comparisons_of_isNaN (a := e.min) (.inr h)
  rw [inRange, hle, Bool.false_and]

/-- The model's search is the library's, so it inherits the library's facts about the position of the first match. -/
theorem firstMatch_eq_find? (m : Word) (tab : List DevRange) : firstMatch m tab = tab.find? (inRange m) := by
  induction tab with
  | nil => rfl
  | cons e rest ih =>
    rw [firstMatch, ih]
    cases h : inRange m e with
    | true => rw [List.find?_cons_of_pos h, if_pos rfl]
    | false => rw [List.find?_cons_of_neg (Bool.eq_false_iff.mp h), if_neg Bool.false_ne_true]

theorem firstMatch_eq_some_of_getElem? {m : Word} {tab : List DevRange} {i : Nat} {e : DevRange}
    (hi : tab[i]? = some e) (hin : inRange m e = true)
    (hfirst : ∀ (j : Nat) (e' : DevRange), j < i → tab[j]? = some e' → ¬ inRange m e' = true) :
    firstMatch m tab = some e := by
  obtain ⟨hlt, hget⟩ := List.getElem?_eq_some_iff.mp hi
  rw [firstMatch_eq_find?, List.find?_eq_some_iff_getElem]
  refine ⟨hin, i, hlt, hget, fun j hj => ?_⟩
  have hout := hfirst j tab[j] hj (List.getElem?_eq_getElem (hj.trans hlt))
  rw [Bool.eq_false_iff.mpr hout, Bool.not_false]

theorem firstMatch_eq_none_iff (m : Word) (tab : List DevRange) :
    firstMatch m tab = none ↔ ∀ e ∈ tab, ¬ inRange m e = true := by
  rw [firstMatch_eq_find?, List.find?_eq_none]

theorem classifyValue_of_match {c : Cfg} {x : Word} {e : DevRange} (h : firstMatch (fabs x) c.devTab = some e) :
    classifyValue c x = e.cat := by
  rw [classifyValue, h]

theorem classifyValue_of_noMatch {c : Cfg} {x : Word} (h : firstMatch (fabs x) c.devTab = none) :
    classifyValue c x = if fgt (fabs x) c.otherFloor = true then catOther else catUnknown := by
  rw [classifyValue, h]

/-- A NaN's magnitude is a NaN: it is in no range and not above the floor. -/
theorem classifyValue_of_isNaN {x : Word} (h : isNaN x = true) (c : Cfg) : classifyValue c x = catUnknown := by
  have hm : isNaN (fabs x) = true := (isNaN_fabs x).trans h
  have hnone : firstMatch (fabs x) c.devTab = none :=
    (firstMatch_eq_none_iff _ _).mpr fun e _ => Bool.eq_false_iff.mp (inRange_of_isNaN hm e)
  obtain ⟨hgt, _⟩ := comparisons_of_isNaN (b := c.otherFloor) (.inl hm)
  rw [classifyValue_of_noMatch hnone, hgt, if_neg Bool.false_ne_true]

/-- Settles O39: the search finds the entry in range with none in range before it, or finds nothing; a NaN is the second
case, with the floor not passed. -/
theorem classifyReturnsTheFirstMatch : Obligations.ClassifyReturnsTheFirstMatch := by
  intro c x
  refine ⟨fun i e hi hmin hmax hfirst => ?_, fun hout => ?_, fun hnan => classifyValue_of_isNaN hnan c⟩
  · have hin : inRange (fabs x) e = true := (inRange_iff _ _).mpr ⟨hmin, hmax⟩
    exact classifyValue_of_match <| firstMatch_eq_some_of_getElem? hi hin fun j e' hj he' hin' =>
      hfirst j e' hj he' ((inRange_iff _ _).mp hin')
  · exact classifyValue_of_noMatch <| (firstMatch_eq_none_iff _ _).mpr fun e he hin =>
      hout e he ((inRange_iff _ _).mp hin)

/-! ### CLASSIFY (45_classifier.md R141) -/

/-- CLASSIFY's whole step: the filtered value's category goes to `cat`, and EMIT is the next stage. -/
theorem exec_classify (s : State) : exec .classify s = .next (s.setProc { s.proc with
    cat := classifyValue s.cfg s.proc.y2
    stage := 0x18#8 }) := rfl

/-- Settles O40: CLASSIFY's code is R74's, and its step writes `cat` and `stage` alone. -/
theorem classifyStageWritesTheCategory : Obligations.ClassifyStageWritesTheCategory :=
  ⟨decodeStage_encode .classify _ rfl, exec_classify⟩

end Sys2Proof.Machine

/-!
PROOFS. The processing sequencer and the output ports (46_sequencer_io.md): WAIT's arms (R151), when PROC is blocked
(R150), what EMIT and STATUS append and the ports show (R152, R153), that a tick commutes with ACQ (R154), and one whole
tick from WAIT back to WAIT (R150).
-/

namespace Sys2Proof.Machine

/-! ### WAIT (46_sequencer_io.md R151) -/

theorem exec_wait_of_frstPend {s : State} (hpend : s.shared.frstPend = true) :
    exec .wait s = .next (filterReset s) :=
  congrArg Host.Outcome.next (if_pos hpend)

theorem exec_wait_of_ready {s : State} (hpend : s.shared.frstPend = false) (hready : s.shared.ready = true) :
    exec .wait s = .next (latchPair s) := by
  simp [exec, execWait, hpend, hready]

theorem exec_wait_of_idle {s : State} (hpend : s.shared.frstPend = false) (hready : s.shared.ready = false) :
    exec .wait s = .next s := by
  simp [exec, execWait, hpend, hready]

/-- Settles O25: WAIT's arms are the updates of the statement. -/
theorem waitServesTheResetThenThePair : Obligations.WaitServesTheResetThenThePair :=
  ⟨decodeStage_encode .wait _ rfl, fun _ => ⟨exec_wait_of_frstPend, exec_wait_of_ready, exec_wait_of_idle⟩⟩

/-- WAIT changes nothing exactly when neither flag is set: each arm clears the flag it serves. -/
theorem exec_wait_eq_self_iff {s t : State} (h : exec .wait s = .next t) :
    t = s ↔ s.shared.ready = false ∧ s.shared.frstPend = false := by
  cases hpend : s.shared.frstPend with
  | true =>
    obtain rfl := Host.Outcome.next.inj ((exec_wait_of_frstPend hpend).symm.trans h)
    refine iff_of_false (fun heq => ?_) (by simp)
    simpa [hpend] using congrArg (·.shared.frstPend) heq
  | false =>
    cases hready : s.shared.ready with
    | true =>
      obtain rfl := Host.Outcome.next.inj ((exec_wait_of_ready hpend hready).symm.trans h)
      refine iff_of_false (fun heq => ?_) (by simp)
      simpa [hready] using congrArg (·.shared.ready) heq
    | false =>
      obtain rfl := Host.Outcome.next.inj ((exec_wait_of_idle hpend hready).symm.trans h)
      exact iff_of_true rfl ⟨rfl, rfl⟩

/-! ### When PROC is blocked (46_sequencer_io.md R150) -/

theorem format_of_encode_stage {i : Instr} {code : Code8} (h : encode i = .stage code) : i.format = .s := by
  cases i with
  | sample | freset => cases h
  | wait | pwr | bq0 | bq1 | bq2 | bpush | detect | classify | emit | base | status => rfl

theorem encode_eq_wait_iff {i : Instr} {code : Code8} (h : encode i = .stage code) : i = .wait ↔ code = 0x10#8 := by
  refine ⟨fun hi => ?_, fun hc => ?_⟩
  · subst hi
    exact (Code.stage.inj h).symm
  · have hdecode := decodeStage_encode i code h
    rw [hc, decodeStage_encode .wait _ rfl] at hdecode
    exact (Except.ok.inj hdecode).symm

/-- With the cursor inside the ring no stage stops the machine. -/
theorem exists_exec_stage {i : Instr} {s : State} (hi : i.format = .s) (hcur : s.proc.cur.toNat < s.cfg.ringSize) :
    ∃ t, exec i s = .next t := by
  cases i with
  | sample | freset => cases hi
  | bpush => exact ⟨_, exec_bpush_of_lt hcur⟩
  | wait | pwr | bq0 | bq1 | bq2 | detect | classify | emit | base | status => exact ⟨_, rfl⟩

/-- The stages that may follow an operation's own (46_sequencer_io.md R150); a host command chooses none. -/
def nextStages : Instr → List Code8
  | .sample _ _ _ => []
  | .freset => []
  | .wait => [0x10#8, 0x11#8]
  | .pwr => [0x12#8]
  | .bq0 => [0x13#8]
  | .bq1 => [0x14#8]
  | .bq2 => [0x15#8]
  | .bpush => [0x16#8]
  | .detect => [0x17#8, 0x18#8, 0x19#8]
  | .classify => [0x18#8]
  | .emit => [0x19#8]
  | .base => [0x1A#8]
  | .status => [0x10#8]

theorem stageAfterDetect_mem_nextStages (ev on : Bool) : stageAfterDetect ev on ∈ nextStages .detect := by
  cases ev <;> cases on <;> decide

/-- A stage of the tick chooses one of its successors. -/
theorem exec_stage_mem_nextStages {i : Instr} {s t : State} (hi : i.format = .s) (hne : i ≠ .wait)
    (h : exec i s = .next t) : t.proc.stage ∈ nextStages i := by
  cases i with
  | sample | freset => cases hi
  | wait => exact absurd rfl hne
  | bpush =>
    obtain rfl := exec_bpush_next h
    exact List.mem_singleton.mpr rfl
  | detect =>
    obtain rfl := Host.Outcome.next.inj h
    exact stageAfterDetect_mem_nextStages _ _
  | pwr | bq0 | bq1 | bq2 | classify | emit | base | status =>
    obtain rfl := Host.Outcome.next.inj h
    exact List.mem_singleton.mpr rfl

/-- No stage of the tick is its own successor. -/
theorem notMem_nextStages {i : Instr} {code : Code8} (hcode : encode i = .stage code) (hne : i ≠ .wait) :
    code ∉ nextStages i := by
  cases i with
  | sample | freset => cases hcode
  | wait => exact absurd rfl hne
  | pwr | bq0 | bq1 | bq2 | bpush | detect | classify | emit | base | status =>
    rw [← Code.stage.inj hcode]
    decide

/-- Settles O26: every stage of the tick moves `stage` on, and WAIT changes nothing when neither flag is set. -/
theorem procIsBlockedExactlyInAnIdleWait : Obligations.ProcIsBlockedExactlyInAnIdleWait := by
  intro s hlegal hcur
  rcases decodeStage_cases s.proc.stage with ⟨i, hdecode, hcode, _⟩ | ⟨_, hillegal⟩
  · have hi := format_of_encode_stage hcode
    obtain ⟨t, hx⟩ := exists_exec_stage hi hcur
    refine ⟨i, t, hdecode, hx, ?_⟩
    rw [← encode_eq_wait_iff hcode]
    by_cases hwait : i = .wait
    · subst hwait
      rw [exec_wait_eq_self_iff hx, eq_self, true_and]
    · have hmoves : t ≠ s := by
        rintro rfl
        exact notMem_nextStages hcode hwait (exec_stage_mem_nextStages hi hwait hx)
      exact iff_of_false hmoves fun ⟨hi', _⟩ => hwait hi'
  · exact absurd (hlegal.symm.trans hillegal) (by decide)

/-! ### EMIT and the event port (46_sequencer_io.md R152, R155) -/

/-- The state that EMIT leaves. -/
def emitted (s : State) : State :=
  s.setProc { s.proc with evt := s.proc.evt ++ [eventOf s.proc], stage := 0x19#8 }

theorem exec_emit (s : State) : exec .emit s = .next (emitted s) := rfl

theorem eventPort_of_append {s t : State} {r : EventRecord} (h : t.proc.evt = s.proc.evt ++ [r]) :
    eventPort s t = some (packEvent r) := by
  simp [eventPort, h]

theorem statusPort_of_append {s t : State} {r : StatusRecord} (h : t.proc.sts = s.proc.sts ++ [r]) :
    statusPort s t = some (packStatus r) := by
  simp [statusPort, h]

theorem statusPort_of_eq {s t : State} (h : t.proc.sts = s.proc.sts) : statusPort s t = none := by
  simp [statusPort, h]

/-- Settles O41: EMIT's one record is the one the event port shows, and the status trace does not grow. -/
theorem emitAppendsTheEventRecord : Obligations.EmitAppendsTheEventRecord :=
  ⟨decodeStage_encode .emit _ rfl, fun s =>
    ⟨emitted s, exec_emit s, rfl, eventPort_of_append (r := eventOf s.proc) rfl, statusPort_of_eq rfl⟩⟩

/-! ### STATUS and the status port (46_sequencer_io.md R153, R156) -/

/-- The state that STATUS leaves. -/
def reported (s : State) : State :=
  s.setProc { s.proc with
    sts := if statusDue s.cfg s.proc then s.proc.sts ++ [statusOf s.proc] else s.proc.sts
    scnt :=
      if s.cfg.statusInterval = 0#32 then s.proc.scnt
      else if statusDue s.cfg s.proc then 0#32
      else s.proc.scnt + 1#32
    stage := 0x10#8 }

theorem exec_status (s : State) : exec .status s = .next (reported s) := rfl

section Reported

variable {s : State}

theorem statusDue_of_off (hoff : s.cfg.statusInterval = 0#32) : statusDue s.cfg s.proc = false := by
  simp [statusDue, hoff]

theorem reported_of_off (hoff : s.cfg.statusInterval = 0#32) :
    reported s = s.setProc { s.proc with stage := 0x10#8 } := by
  simp [reported, statusDue_of_off hoff, hoff]

theorem reported_of_due (hon : s.cfg.statusInterval ≠ 0#32) (hdue : statusDue s.cfg s.proc = true) :
    reported s =
      s.setProc { s.proc with sts := s.proc.sts ++ [statusOf s.proc], scnt := 0#32, stage := 0x10#8 } := by
  simp [reported, hon, hdue]

theorem reported_of_not_due (hon : s.cfg.statusInterval ≠ 0#32) (hdue : statusDue s.cfg s.proc = false) :
    reported s = s.setProc { s.proc with scnt := s.proc.scnt + 1#32, stage := 0x10#8 } := by
  simp [reported, hon, hdue]

/-- Below the interval the 32-bit count does not overflow, so a readout is due when the number of ticks is the
interval. -/
theorem statusDue_iff (hlt : s.proc.scnt.toNat < s.cfg.statusInterval.toNat) :
    statusDue s.cfg s.proc = true ↔ s.proc.scnt.toNat + 1 = s.cfg.statusInterval.toNat := by
  simp only [statusDue, Bool.and_eq_true, bne_iff_ne, beq_iff_eq]
  constructor
  · rintro ⟨_, hcount⟩
    bv_omega
  · intro hcount
    exact ⟨by bv_omega, by bv_omega⟩

end Reported

/-- Settles O42: the three outcomes of STATUS are no readout at all, a readout, and one tick counted. -/
theorem statusCountsTicksAndReports : Obligations.StatusCountsTicksAndReports := by
  refine ⟨decodeStage_encode .status _ rfl, fun s hlt => ⟨fun hoff => ?_, fun hlast => ?_, fun hon hmore => ?_⟩⟩
  · rw [exec_status, reported_of_off hoff]
    rfl
  · have hdue : statusDue s.cfg s.proc = true := (statusDue_iff (by omega)).mpr hlast
    have hon : s.cfg.statusInterval ≠ 0#32 := fun hoff => by simp [hoff] at hlast
    refine ⟨reported s, exec_status s, reported_of_due hon hdue, ?_⟩
    exact statusPort_of_append (r := statusOf s.proc) (congrArg (·.proc.sts) (reported_of_due hon hdue))
  · have hpos : s.cfg.statusInterval.toNat ≠ 0 := fun h0 => hon (BitVec.eq_of_toNat_eq h0)
    have hbelow : s.proc.scnt.toNat < s.cfg.statusInterval.toNat := by omega
    have hdue : statusDue s.cfg s.proc = false :=
      Bool.eq_false_iff.mpr fun hdue => hmore ((statusDue_iff hbelow).mp hdue)
    have heq := reported_of_not_due hon hdue
    have hscnt : (reported s).proc.scnt = s.proc.scnt + 1#32 := congrArg (·.proc.scnt) heq
    refine ⟨reported s, exec_status s, ?_, ?_⟩
    · rw [hscnt]
      bv_omega
    · rw [hscnt]
      exact heq

/-! ### A tick and ACQ (46_sequencer_io.md R154) -/

/-- A host command writes ACQ's registers and the shared state alone. -/
theorem exec_host_eq_setAcq_setShared {i : Instr} {s t : State} (hi : i.format = .h) (h : exec i s = .next t) :
    ∃ a sh, t = (s.setAcq a).setShared sh := by
  cases i with
  | sample ch raw ts =>
    obtain ⟨_, rfl⟩ | ⟨c, _, _, rfl⟩ := execSample_next (ts := ts) h
    · exact ⟨t.acq, t.shared, rfl⟩
    · rw [acceptSample_eq]
      split
      next => exact ⟨{ sampledAcq c raw s with acc0 := ChanAcc.zero, acc1 := ChanAcc.zero }, _, rfl⟩
      next => exact ⟨sampledAcq c raw s, s.shared, rfl⟩
  | freset =>
    obtain rfl := Host.Outcome.next.inj h
    exact ⟨s.acq, _, rfl⟩
  | wait | pwr | bq0 | bq1 | bq2 | bpush | detect | classify | emit | base | status => cases hi

/-- A stage of the tick writes PROC's registers alone. -/
theorem exec_stage_eq_setProc {i : Instr} {s t : State} (hi : i.format = .s) (hne : i ≠ .wait)
    (h : exec i s = .next t) : ∃ q, t = s.setProc q := by
  cases i with
  | sample | freset => cases hi
  | wait => exact absurd rfl hne
  | bpush => exact ⟨_, exec_bpush_next h⟩
  | pwr | bq0 | bq1 | bq2 | detect | classify | emit | base | status =>
    exact ⟨_, (Host.Outcome.next.inj h).symm⟩

/-- A stage of the tick does not read the shared state: other values there change nothing else. -/
theorem exec_stage_setShared {i : Instr} {s t : State} (hi : i.format = .s) (hne : i ≠ .wait)
    (h : exec i s = .next t) (sh : Shared) : exec i (s.setShared sh) = .next (t.setShared sh) := by
  cases i with
  | sample | freset => cases hi
  | wait => exact absurd rfl hne
  | bpush =>
    obtain ⟨hok, rfl⟩ := execBpush_next h
    exact if_pos hok
  | pwr | bq0 | bq1 | bq2 | detect | classify | emit | base | status =>
    exact Host.Outcome.next.inj h ▸ rfl

/-- Settles O51: the common end state has the command's writes and the stage's, which are to different parts of the
state, and neither reads what the other writes. -/
theorem stagesCommuteWithCommands : Obligations.StagesCommuteWithCommands := by
  intro a i s s1 s2 ha hi hne h1 h2
  obtain ⟨acq, sh, rfl⟩ := exec_host_eq_setAcq_setShared ha h1
  obtain ⟨q, rfl⟩ := exec_stage_eq_setProc hi hne h2
  refine ⟨((s.setAcq acq).setShared sh).setProc q, ?_, ?_⟩
  · exact exec_stage_setShared hi hne (exec_stage_setAcq hi h2 acq) sh
  · exact exec_host_setProc_setClock ha h1 q s.clk

/-! ### One whole tick (46_sequencer_io.md R150) -/

theorem Core_run_add {M : Host.Core} {s t : M.State} {m : Nat} (h : M.run m s = .next t) (n : Nat) :
    M.run (m + n) s = M.run n t := by
  induction m generalizing s with
  | zero =>
    obtain rfl := Host.Outcome.next.inj h
    rw [Nat.zero_add]
  | succ m ih =>
    rw [Nat.succ_add]
    cases hu : M.step s with
    | next u =>
      rw [Core_run_succ hu] at h
      exact (Core_run_succ hu _).trans (ih h)
    | fault _ | refused _ =>
      rw [Host.Core.run, hu] at h
      cases h

/-- With no turn scheduled, a run goes on with the operation that `stage` selects. -/
theorem core_run_stage {i : Instr} {s t : State} (hx : exec i s = .next t) (hs : s.script = [])
    (hcode : encode i = .stage s.proc.stage) (k : Nat) : core.run (k + 1) s = core.run k t := by
  obtain ⟨_, _, hproc⟩ := stepRunsTheDecodedOperation s i []
  exact Core_run_succ (M := core) ((hproc hs (decodeStage_encode _ _ hcode)).trans hx) k

/-- The state that PWR leaves. -/
def powered (s : State) : State :=
  s.setProc { s.proc with
    p := powerOf (s.procNan 0) (s.procNan 1) s.cfg.scale s.proc.lv0 s.proc.lv1
    stage := 0x12#8
    draws := s.proc.draws + 2 }

/-- The state that DETECT leaves. -/
def detected (s : State) : State := s.setProc (detectProc s.cfg s.clk s.proc)

/-- The state that CLASSIFY leaves. -/
def classified (s : State) : State :=
  s.setProc { s.proc with cat := classifyValue s.cfg s.proc.y2, stage := 0x18#8 }

/-- The state that BASE leaves. -/
def based (s : State) : State :=
  s.setProc { s.proc with
    bvalid := s.proc.full
    bval := if s.proc.full then ringMean s.procNan s.proc.buf s.cfg.ringSize else posZero
    stage := 0x1A#8
    draws := s.proc.draws + (s.cfg.ringSize + 1) }

/-- The state that the tick of a waiting pair has come to after DETECT. -/
def tickDetected (s : State) : State := detected (pushed (afterBq2 (powered (latchPair s))))

/-- The first seven steps of a tick are the same whatever the event's outcome. -/
theorem core_run_tickDetected {s : State} (hs : s.script = []) (hstage : s.proc.stage = 0x10#8)
    (hready : s.shared.ready = true) (hpend : s.shared.frstPend = false)
    (hcur : s.proc.cur.toNat < s.cfg.ringSize) : core.run 7 s = .next (tickDetected s) :=
  calc core.run 7 s
    _ = core.run 6 (latchPair s) := core_run_stage (exec_wait_of_ready hpend hready) hs (hstage ▸ rfl) 6
    _ = core.run 5 (powered (latchPair s)) := core_run_stage (exec_pwr (latchPair s)) hs rfl 5
    _ = core.run 2 (afterBq2 (powered (latchPair s))) :=
      Core_run_add (M := core) (core_run_cascade (s := powered (latchPair s)) hs rfl) 2
    _ = core.run 1 (pushed (afterBq2 (powered (latchPair s)))) :=
      core_run_stage (exec_bpush_of_lt (s := afterBq2 (powered (latchPair s))) hcur) hs rfl 1
    _ = .next (tickDetected s) :=
      core_run_stage (exec_detect (pushed (afterBq2 (powered (latchPair s))))) hs rfl 0

/-- DETECT chooses the next stage by the two flags it leaves. -/
theorem detectProc_stage (c : Cfg) (now : Time) (q : Proc) :
    (detectProc c now q).stage = stageAfterDetect (detectProc c now q).ev (detectProc c now q).dir := by
  unfold detectProc stageAfterDetect
  cases detects c now q <;> rfl

theorem core_run_base_status {u : State} (hs : u.script = []) (hstage : u.proc.stage = 0x19#8) :
    core.run 2 u = .next (reported (based u)) :=
  calc core.run 2 u
    _ = core.run 1 (based u) := core_run_stage (exec_base u) hs (hstage ▸ rfl) 1
    _ = .next (reported (based u)) := core_run_stage (exec_status (based u)) hs rfl 0

/-- From EMIT on, a tick ends in three steps. -/
theorem core_run_emit_base_status {u : State} (hs : u.script = []) (hstage : u.proc.stage = 0x18#8) :
    core.run 3 u = .next (reported (based (emitted u))) :=
  calc core.run 3 u
    _ = core.run 2 (emitted u) := core_run_stage (exec_emit u) hs (hstage ▸ rfl) 2
    _ = .next (reported (based (emitted u))) := core_run_base_status hs rfl

/-- The number of steps that an event adds to a tick: EMIT, and for an ON event CLASSIFY. -/
def eventSteps (q : Proc) : Nat := if q.ev = true then (if q.dir = true then 2 else 1) else 0

/-- The records that a tick appends to `EVT`: one where there was an event. -/
def tickEvents (q : Proc) : List EventRecord := if q.ev = true then [eventOf q] else []

section Event

variable {q : Proc}

theorem eventSteps_of_noEvent (hev : q.ev = false) : eventSteps q = 0 := by simp [eventSteps, hev]

theorem eventSteps_of_off (hev : q.ev = true) (hdir : q.dir = false) : eventSteps q = 1 := by
  simp [eventSteps, hev, hdir]

theorem eventSteps_of_on (hev : q.ev = true) (hdir : q.dir = true) : eventSteps q = 2 := by
  simp [eventSteps, hev, hdir]

theorem tickEvents_of_noEvent (hev : q.ev = false) : tickEvents q = [] := by simp [tickEvents, hev]

theorem tickEvents_of_event (hev : q.ev = true) : tickEvents q = [eventOf q] := if_pos hev

end Event

/-- What the stages after DETECT make of the state `u` that it leaves: they write the category, the baseline, the status
count and the traces, and among these `EVT` gets the records of the tick. -/
def EndsTick (u t : State) : Prop :=
  t = u.setProc { u.proc with
    stage := 0x10#8
    cat := t.proc.cat
    bvalid := t.proc.bvalid
    bval := t.proc.bval
    scnt := t.proc.scnt
    sts := t.proc.sts
    draws := t.proc.draws
    evt := u.proc.evt ++ tickEvents t.proc }

section EndsTick

variable {u : State}

theorem EndsTick.of_noEvent (hev : u.proc.ev = false) : EndsTick u (reported (based u)) := by
  have hnone : tickEvents (reported (based u)).proc = [] := tickEvents_of_noEvent hev
  rw [EndsTick, hnone, List.append_nil]
  rfl

theorem EndsTick.of_off (hev : u.proc.ev = true) : EndsTick u (reported (based (emitted u))) := by
  have hone := tickEvents_of_event (q := (reported (based (emitted u))).proc) hev
  rw [EndsTick, hone]
  rfl

theorem EndsTick.of_on (hev : u.proc.ev = true) : EndsTick u (reported (based (emitted (classified u)))) := by
  have hone := tickEvents_of_event (q := (reported (based (emitted (classified u)))).proc) hev
  rw [EndsTick, hone]
  rfl

/-- The stages that DETECT chooses among run the tick to its end. -/
theorem core_run_endsTick (hs : u.script = []) (hstage : u.proc.stage = stageAfterDetect u.proc.ev u.proc.dir) :
    ∃ t, core.run (2 + eventSteps u.proc) u = .next t ∧ EndsTick u t := by
  cases hev : u.proc.ev with
  | false =>
    rw [hev] at hstage
    rw [eventSteps_of_noEvent hev]
    exact ⟨_, core_run_base_status hs hstage, .of_noEvent hev⟩
  | true =>
    cases hdir : u.proc.dir with
    | false =>
      rw [hev, hdir] at hstage
      rw [eventSteps_of_off hev hdir]
      exact ⟨_, core_run_emit_base_status hs hstage, .of_off hev⟩
    | true =>
      rw [hev, hdir] at hstage
      rw [eventSteps_of_on hev hdir]
      have hclassify := core_run_stage (exec_classify u) hs (hstage ▸ rfl) 3
      exact ⟨_, hclassify.trans (core_run_emit_base_status (u := classified u) hs rfl), .of_on hev⟩

end EndsTick

/-- Settles O54: seven steps to DETECT, which fixes the pair, the clock, the push and the event, and the two to four
after it. -/
theorem wholeTickReturnsToWait : Obligations.WholeTickReturnsToWait := by
  intro s hinv hs hstage hready hpend
  have hdetect := core_run_tickDetected hs hstage hready hpend hinv.curLt
  obtain ⟨t, hrun, hend⟩ := core_run_endsTick (u := tickDetected s) hs (detectProc_stage _ _ _)
  have hp : t.proc.p = (tickDetected s).proc.p := congrArg (·.proc.p) hend
  have hev : t.proc.ev = (tickDetected s).proc.ev := congrArg (·.proc.ev) hend
  have hdir : t.proc.dir = (tickDetected s).proc.dir := congrArg (·.proc.dir) hend
  have hsteps : eventSteps t.proc = eventSteps (tickDetected s).proc := by rw [eventSteps, hev, hdir, eventSteps]
  refine ⟨t, ?_, congrArg (·.proc.stage) hend, congrArg (·.shared) hend, congrArg (·.acq) hend,
    congrArg (·.proc.lv0) hend, congrArg (·.proc.lv1) hend, congrArg (·.proc.tnow) hend, ?_,
    congrArg (·.proc.evt) hend, ?_⟩
  · calc core.run (9 + eventSteps t.proc) s
      _ = core.run (7 + (2 + eventSteps (tickDetected s).proc)) s := by rw [hsteps, ← Nat.add_assoc]
      _ = core.run (2 + eventSteps (tickDetected s).proc) (tickDetected s) := Core_run_add (M := core) hdetect _
      _ = .next t := hrun
  · rw [hp]
    exact congrArg (·.proc.buf) hend
  · rw [hev]
    exact congrArg (·.proc.last) hend

end Sys2Proof.Machine

/-!
PROOFS. The exceptional conditions (60_exceptions.md): a NaN in a section of the filter (R176), PROC at an illegal stage
(93_implementation_defined.md U7), and the one way in which the machine stops (R173, R182).
-/

namespace Sys2Proof.Machine

/-! ### A NaN in a section (60_exceptions.md R176, 42_highpass_filter.md R105) -/

section NaNOperand

variable {f : Word → Word → Word → Word} {nan a b : Word}

theorem DrawsNaN.isNaN_left (hf : DrawsNaN f) (hn : isNaN nan = true) (ha : isNaN a = true) :
    isNaN (f nan a b) = true := by
  rw [hf.propagates nan a b (.inl ha), hn]

theorem DrawsNaN.isNaN_right (hf : DrawsNaN f) (hn : isNaN nan = true) (hb : isNaN b = true) :
    isNaN (f nan a b) = true := by
  rw [hf.propagates nan a b (.inr hb), hn]

end NaNOperand

section NaNInSection

variable {nan : Nat → Word} {c : Coefs} {w w' : Delay} {x y : Word}

/-- The output is a sum of the first delay word and a multiple of the input. -/
theorem BiquadRule.isNaN_output (h : BiquadRule nan c w x y w') (hn : ∀ i, isNaN (nan i) = true)
    (hin : isNaN w.w1 = true ∨ isNaN x = true) : isNaN y = true := by
  obtain ⟨t0, _, _, _, _, _, ht0, hy, _⟩ := h
  rw [hy]
  rcases hin with hw | hx
  · exact fadd_drawsNaN.isNaN_right (hn 1) hw
  · have hprod : isNaN t0 = true := ht0 ▸ fmul_drawsNaN.isNaN_right (hn 0) hx
    exact fadd_drawsNaN.isNaN_left (hn 1) hprod

/-- The output feeds back into both delay words: each subtracts a multiple of it. -/
theorem BiquadRule.isNaN_delay (h : BiquadRule nan c w x y w') (hn : ∀ i, isNaN (nan i) = true)
    (hy : isNaN y = true) : isNaN w'.w1 = true ∧ isNaN w'.w2 = true := by
  obtain ⟨_, _, t2, t3, _, t5, _, _, _, ht2, ht3, hw1, _, ht5, hw2⟩ := h
  have hfeed1 : isNaN t2 = true := ht2 ▸ fmul_drawsNaN.isNaN_right (hn 3) hy
  have hfeed2 : isNaN t5 = true := ht5 ▸ fmul_drawsNaN.isNaN_right (hn 7) hy
  have hdiff : isNaN t3 = true := ht3 ▸ fsub_drawsNaN.isNaN_right (hn 4) hfeed1
  exact ⟨hw1 ▸ fadd_drawsNaN.isNaN_left (hn 5) hdiff, hw2 ▸ fsub_drawsNaN.isNaN_right (hn 8) hfeed2⟩

/-- The second delay word is the last summand of the new first one. -/
theorem BiquadRule.isNaN_shift (h : BiquadRule nan c w x y w') (hn : ∀ i, isNaN (nan i) = true)
    (hw : isNaN w.w2 = true) : isNaN w'.w1 = true := by
  obtain ⟨_, _, _, _, _, _, _, _, _, _, _, hw1, _⟩ := h
  rw [hw1]
  exact fadd_drawsNaN.isNaN_right (hn 5) hw

end NaNInSection

/-- Settles O30: a NaN reaches the output, the output both delay words, and the second delay word the first. -/
theorem nanStaysInADelayLine : Obligations.NaNStaysInADelayLine := by
  intro nan c w x y w' hn h
  refine ⟨fun hin => ?_, h.isNaN_shift hn⟩
  have hy := h.isNaN_output hn hin
  exact ⟨hy, h.isNaN_delay hn hy⟩

/-! ### PROC at an illegal stage (93_implementation_defined.md U7) -/

theorem decodeBeat_of_freset {cmd : Beat} (h : beatOp cmd = 0x02#8) : decodeBeat cmd = .ok .freset := by
  rw [decodeBeat, h]
  rfl

/-- Settles O21: an illegal code decodes to no operation, and a beat's operation does not read `stage`. -/
theorem illegalStageLeavesProcStuck : Obligations.IllegalStageLeavesProcStuck := by
  intro s rest hillegal
  obtain ⟨_, _, _, _, _, _, _, _, _, _, _, hrejects⟩ := stageCodesDecode
  refine ⟨fun hs => ?_, fun cmd hs hop => ?_⟩
  · rw [step_of_script_cons hs]
    exact runCode_error (.stage s.proc.stage) _ _ (hrejects _ hillegal)
  · rw [step_of_script_cons hs]
    exact runCode_ok (.beat cmd) .freset _ (decodeBeat_of_freset hop)

/-! ### The one stop (60_exceptions.md R173, R182) -/

theorem channelCode_of_channelOf {ch : Code8} {c : Chan} (h : channelOf ch = some c) : ch = channelCode c := by
  rcases channelOf_cases ch with ⟨k, hk, hcode, _⟩ | ⟨hnone, _⟩
  · rw [hcode, Option.some.inj (hk.symm.trans h)]
  · cases hnone.symm.trans h

/-- A beat stops the machine only as a SAMPLE for a channel whose count is full. -/
theorem runCode_beat_cases (cmd : Beat) (s : State) :
    (∃ t, runCode (.beat cmd) s = .next t) ∨
    (runCode (.beat cmd) s = .fault .lockstepViolation ∧ beatOp cmd = 0x01#8 ∧
      ∃ c, beatCh cmd = channelCode c ∧ (s.acq.chan c).n.toNat = s.cfg.decim) := by
  rcases decodeBeat_cases cmd with ⟨hop, hd⟩ | ⟨_, hd⟩ | ⟨_, _, hd⟩
  · rw [runCode_ok (.beat cmd) _ s hd]
    rcases execSample_cases (beatCh cmd) (beatRaw cmd) (beatTs cmd) s with ⟨_, hx⟩ | ⟨c, hc, hfull, hx⟩ | ⟨_, _, _, hx⟩
    · exact .inl ⟨_, hx⟩
    · exact .inr ⟨hx, hop, c, channelCode_of_channelOf hc, (countFull_iff _ _).mp hfull⟩
    · exact .inl ⟨_, hx⟩
  · exact .inl ⟨_, runCode_ok (.beat cmd) _ s hd⟩
  · exact .inl ⟨_, runCode_error (.beat cmd) _ s hd⟩

/-- With the cursor inside the ring no turn of PROC stops the machine, at a legal stage or an illegal one. -/
theorem exists_runCode_stage (code : Code8) {s : State} (hcur : s.proc.cur.toNat < s.cfg.ringSize) :
    ∃ t, runCode (.stage code) s = .next t := by
  rcases decodeStage_cases code with ⟨i, hd, hcode, _⟩ | ⟨hd, _⟩
  · rw [runCode_ok (.stage code) i s hd]
    exact exists_exec_stage (format_of_encode_stage hcode) hcur
  · exact ⟨s, runCode_error (.stage code) _ s hd⟩

/-- Settles O46: of the turns only a beat can stop, since the invariant keeps PROC's cursor inside the ring. -/
theorem onlyLostLockstepStopsTheMachine : Obligations.OnlyLostLockstepStopsTheMachine := by
  intro s h
  rcases step_cases s with ⟨cmd, hturn, hs⟩ | ⟨_, hs⟩ | ⟨_, _, hs⟩ | ⟨_, hs⟩ | ⟨_, hs⟩ <;> rw [hs]
  · rcases runCode_beat_cases cmd s.popTurn with hnext | ⟨hstop, hop, c, hch, hfull⟩
    · exact .inl hnext
    · exact .inr ⟨hstop, cmd, c, hturn, hop, hch, hfull⟩
  · exact .inl (exists_runCode_stage s.proc.stage (s := s.popTurn) h.curLt)
  · exact .inl ⟨_, rfl⟩
  · exact .inl ⟨_, rfl⟩
  · exact .inl ⟨_, rfl⟩

end Sys2Proof.Machine
